-- ==== Sys2Proof/Word.lean ====
section
/-! DEFINITION. The word types of MHE: every register and intermediate value is an unsigned bit vector
of the width stated where it is defined (spec/00_scope.md R13). -/

namespace Sys2Proof

/-- The data word: accumulator, seed, constants, result (R10). -/
abbrev Word := BitVec 32

/-- One key byte or one character byte (R25). -/
abbrev Byte := BitVec 8

/-- One UTF-16 code unit or character code, in [0, 0xFFFF] (R18, R61). -/
abbrev CodeUnit := BitVec 16

/-- One transfer of the command port (R41, R60). -/
abbrev CommandWord := BitVec 64

/-- A word address of the read port, 0 to 7 (R42). -/
abbrev ReadAddr := BitVec 3

end Sys2Proof
end

