-- ==== Sys2Proof/Machine/Arith.lean ====
section
/-! DEFINITION. The 32-bit arithmetic primitives of spec/40_arith.md. None writes a flag or raises an error; every
result is the low 32 bits (R88). -/

namespace Sys2Proof.Machine

/-- Addition modulo 2^32 (R80). -/
def add32 (a b : Word) : Word := a + b

/-- The low 32 bits of the unsigned product (R81). -/
def mul32 (a b : Word) : Word := a * b

/-- The 32-bit circular left rotation (R83). The rules use the amounts 13 and 15 only; any other amount is taken
modulo 32, so 32 is read as 0, as R83 says (log entry 12). -/
def rotl32 (x : Word) (r : Nat) : Word := (x <<< (r % 32)) ||| (x >>> (32 - r % 32))

/-- The logical right shift, zero-filled (R84). -/
def shr32 (x : Word) (n : Nat) : Word := x >>> n

/-- The left shift truncated to 32 bits (R85). -/
def shl32 (x : Word) (n : Nat) : Word := x <<< n

/-- `zext_32` of a byte (R13). -/
def zextByte (b : Byte) : Word := b.setWidth 32

/-- Little-endian assembly of four bytes into one word: byte 0 least significant (R86, R44). -/
def le32 (b0 b1 b2 b3 : Byte) : Word :=
  zextByte b0 ||| shl32 (zextByte b1) 8 ||| shl32 (zextByte b2) 16 ||| shl32 (zextByte b3) 24

/-- The 32-bit value with its bytes reversed: `v[7:0] ++ v[15:8] ++ v[23:16] ++ v[31:24]`, left part highest
(R107). -/
def bswap32 (v : Word) : Word :=
  v.extractLsb' 0 8 ++ v.extractLsb' 8 8 ++ v.extractLsb' 16 8 ++ v.extractLsb' 24 8

/-- The 16-bit value with its bytes reversed: `c[7:0] ++ c[15:8]` (R107). -/
def bswap16 (c : CodeUnit) : BitVec 16 := c.extractLsb' 0 8 ++ c.extractLsb' 8 8

/-- Takes a byte sequence four at a time, in order, into the accumulator, each group as its `le32` word; answers the
accumulator and the 0 to 3 bytes left over. Both hash families decompose their input so (R128, R157). -/
def blockFold (block : Word → Word → Word) : Word → List Byte → Word × List Byte
  | h, b0 :: b1 :: b2 :: b3 :: rest => blockFold block (block h (le32 b0 b1 b2 b3)) rest
  | h, [b0, b1, b2] => (h, [b0, b1, b2])
  | h, [b0, b1] => (h, [b0, b1])
  | h, [b0] => (h, [b0])
  | h, [] => (h, [])

end Sys2Proof.Machine
end

