-- ==== Sys2Proof/Config.lean ====
section
/-! DEFINITION. What an implementation fixes. MHE leaves no parameter open (spec/00_scope.md R12), so this
file holds the fixed sizes of R10 to R12 and R60 and no free value. The mixing constants are fixed values,
not configuration (R39); they stand beside the mixers. -/

namespace Sys2Proof

/-- A command word has 64 bits, always (R60, R68). -/
abbrev Config.commandBits : Nat := 64

/-- The tail window holds at most 3 bytes, because a fourth byte completes a block (R12, R25). -/
abbrev Config.tailBytes : Nat := 3

end Sys2Proof
end

