-- ==== Sys2Proof/Syntax.lean ====
section
/-! DEFINITION. The commands of MHE as data: operand classes (spec/30_encoding.md R61), opcodes (R63), the
commands with their operands, and the three answers of the decoder (R64 steps 1 to 3). -/

namespace Sys2Proof

/-- The operand classes of R61: which bits of A a command uses. -/
inductive OperandClass where
  /-- no operand: A[31:0] must be zero -/
  | z
  /-- one UTF-16 code unit or character code in A[15:0]: A[31:16] must be zero -/
  | u
  /-- one 32-bit value in A[31:0] -/
  | w
  deriving DecidableEq, Repr

/-- The assigned opcodes, in the order of R63. -/
inductive Opcode where
  | setseed | h3initS | h3initA | h3put16 | h3put32 | h3final | h2init | h2put | h2final
  deriving DecidableEq, Repr

/-- The commands: one constructor per row of spec/opcode_table.json. A class U operand has 16 bits, so a
code unit outside [0, 0xFFFF] has no term here, just as class U cannot carry one (R61). -/
inductive Instr where
  /-- SETSEED, class W (R180) -/
  | setseed (seed : Word)
  /-- H3INIT_S, class Z (R133) -/
  | h3initS
  /-- H3INIT_A, class Z (R134) -/
  | h3initA
  /-- H3PUT16, class U (R135) -/
  | h3put16 (unit : CodeUnit)
  /-- H3PUT32, class W (R136) -/
  | h3put32 (value : Word)
  /-- H3FINAL, class Z (R137) -/
  | h3final
  /-- H2INIT, class W (R160) -/
  | h2init (length : Word)
  /-- H2PUT, class U (R161) -/
  | h2put (char : CodeUnit)
  /-- H2FINAL, class Z (R162) -/
  | h2final
  deriving DecidableEq, Repr

/-- What the decoder answers for a command word. The two rejections are the decode checks of R64 by name;
neither stops the machine, each takes the error action with that cause. -/
inductive Decoded where
  | ok (i : Instr)
  /-- R64 step 1 fails -/
  | illegalOpcode
  /-- R64 step 2 or step 3 fails -/
  | reservedBits
  deriving DecidableEq, Repr

end Sys2Proof
end

