-- ==== Sys2Proof/WellFormed.lean ====
section
/-! DEFINITION. Well-formed command words, by the match and mask pairs of spec/30_encoding.md R63 and
spec/opcode_table.json. The decoder does not use this file: it takes fields and checks them in the order of R64, so
the two can be held against each other. A term of `Instr` needs no check of its own, since its operand has the width
of its class. -/

namespace Sys2Proof

/-- One row of the opcode table: a word `w` is the row's when `w &&& mask = pattern`. -/
structure OpcodeRow where
  opcode  : Opcode
  pattern : CommandWord
  mask    : CommandWord
  deriving DecidableEq, Repr

/-- The opcode table, row by row, with the masks as it prints them (R63, spec/opcode_table.json). -/
def opcodeTable : List OpcodeRow :=
  [ ⟨.setseed, 0x0100000000000000#64, 0xFFFFFF0000000000#64⟩,
    ⟨.h3initS, 0x1000000000000000#64, 0xFFFFFFFFFFFFFFFF#64⟩,
    ⟨.h3initA, 0x1100000000000000#64, 0xFFFFFFFFFFFFFFFF#64⟩,
    ⟨.h3put16, 0x1200000000000000#64, 0xFFFFFF00FFFF0000#64⟩,
    ⟨.h3put32, 0x1300000000000000#64, 0xFFFFFF0000000000#64⟩,
    ⟨.h3final, 0x1400000000000000#64, 0xFFFFFFFFFFFFFFFF#64⟩,
    ⟨.h2init,  0x2000000000000000#64, 0xFFFFFF0000000000#64⟩,
    ⟨.h2put,   0x2100000000000000#64, 0xFFFFFF00FFFF0000#64⟩,
    ⟨.h2final, 0x2200000000000000#64, 0xFFFFFFFFFFFFFFFF#64⟩ ]

/-- The word is the row's. -/
def OpcodeRow.matches (r : OpcodeRow) (w : CommandWord) : Bool := w &&& r.mask == r.pattern

/-- A command word is well formed when its OP is assigned, its RSV is 0 and its class's must-be-zero bits are 0
(R63). RSV is asked for beside the masks: the masks R63 prints for classes U and W leave RSV's bits [39:32] out, and
R60, R64, R66 and the vectors of 95_test_vectors.md 2.9 say those bits must be 0 as well (DEDUCED, log entry 14). -/
def wellFormedWord (w : CommandWord) : Bool :=
  w.extractLsb' 32 24 == 0#24 && opcodeTable.any (·.matches w)

end Sys2Proof
end

