-- ==== Sys2Proof/Decode.lean ====
section
/-! DEFINITION. The decoder (spec/30_encoding.md R60 to R68), total on every 64-bit word, and after it the encoder
(R69: a command is `(OP << 56) | A` with RSV = 0). -/

namespace Sys2Proof

/-- `OP = W[63:56]` (R60). -/
def opField (w : CommandWord) : BitVec 8 := w.extractLsb' 56 8

/-- `RSV = W[55:32]` (R60). -/
def rsvField (w : CommandWord) : BitVec 24 := w.extractLsb' 32 24

/-- `A = W[31:0]` (R60). -/
def aField (w : CommandWord) : Word := w.extractLsb' 0 32

/-- The class U operand `A[15:0]` (R62). -/
def unitOperand (a : Word) : CodeUnit := a.extractLsb' 0 16

/-- The opcode map of R63, read from the OP field; every other value is unassigned (R65). -/
def opcodeOf? (op : BitVec 8) : Option Opcode :=
  if op = 0x01#8 then some .setseed
  else if op = 0x10#8 then some .h3initS
  else if op = 0x11#8 then some .h3initA
  else if op = 0x12#8 then some .h3put16
  else if op = 0x13#8 then some .h3put32
  else if op = 0x14#8 then some .h3final
  else if op = 0x20#8 then some .h2init
  else if op = 0x21#8 then some .h2put
  else if op = 0x22#8 then some .h2final
  else none

/-- The operand class of an opcode (R63). -/
def Opcode.operandClass : Opcode → OperandClass
  | .setseed => .w
  | .h3initS => .z
  | .h3initA => .z
  | .h3put16 => .u
  | .h3put32 => .w
  | .h3final => .z
  | .h2init => .w
  | .h2put => .u
  | .h2final => .z

/-- The class's must-be-zero bits of A are 0 (R61). -/
def OperandClass.accepts : OperandClass → Word → Bool
  | .z, a => a == 0#32
  | .u, a => a.extractLsb' 16 16 == 0#16
  | .w, _ => true

/-- The command an opcode makes with the operand A (R62, R63). -/
def Opcode.withOperand : Opcode → Word → Instr
  | .setseed, a => .setseed a
  | .h3initS, _ => .h3initS
  | .h3initA, _ => .h3initA
  | .h3put16, a => .h3put16 (unitOperand a)
  | .h3put32, a => .h3put32 a
  | .h3final, _ => .h3final
  | .h2init, a => .h2init a
  | .h2put, a => .h2put (unitOperand a)
  | .h2final, _ => .h2final

/-- Steps 1 to 3 of R64, in order: OP assigned, RSV = 0, the must-be-zero bits of A are 0. -/
def decode (w : CommandWord) : Decoded :=
  match opcodeOf? (opField w) with
  | none => .illegalOpcode
  | some k =>
    if rsvField w ≠ 0#24 then .reservedBits
    else if k.operandClass.accepts (aField w) then .ok (k.withOperand (aField w))
    else .reservedBits

/-- The instruction the decoder read, if it read one. -/
def Decoded.instr? : Decoded → Option Instr
  | .ok i => some i
  | .illegalOpcode => none
  | .reservedBits => none

/-- The host's entry to the decoder: the command word whose bits are `w`, numbered as spec/opcode_table.json
numbers them (one 64-bit word, bit 0 its least significant bit; bits from `nbits` on are 0). -/
def decodeTableWord (nbits w : Nat) : Option Instr :=
  (decode (BitVec.ofNat Config.commandBits (w % 2 ^ nbits))).instr?

/-- The OP value of an opcode (R63). -/
def Opcode.code : Opcode → BitVec 8
  | .setseed => 0x01#8
  | .h3initS => 0x10#8
  | .h3initA => 0x11#8
  | .h3put16 => 0x12#8
  | .h3put32 => 0x13#8
  | .h3final => 0x14#8
  | .h2init => 0x20#8
  | .h2put => 0x21#8
  | .h2final => 0x22#8

/-- The opcode of a command. -/
def Instr.opcode : Instr → Opcode
  | .setseed _ => .setseed
  | .h3initS => .h3initS
  | .h3initA => .h3initA
  | .h3put16 _ => .h3put16
  | .h3put32 _ => .h3put32
  | .h3final => .h3final
  | .h2init _ => .h2init
  | .h2put _ => .h2put
  | .h2final => .h2final

/-- The value a command's operand gives to A (R61, R62). -/
def Instr.operand : Instr → Word
  | .setseed a => a
  | .h3initS => 0#32
  | .h3initA => 0#32
  | .h3put16 c => c.setWidth 32
  | .h3put32 v => v
  | .h3final => 0#32
  | .h2init n => n
  | .h2put c => c.setWidth 32
  | .h2final => 0#32

/-- `(OP << 56) | A`, with RSV = 0 (R69). -/
def encode (i : Instr) : CommandWord :=
  (i.opcode.code.setWidth 64 <<< 56) ||| i.operand.setWidth 64

end Sys2Proof
end

