-- ==== Sys2Proof/Machine/State.lean ====
section
/-! DEFINITION. The state of MHE: the twelve registers of spec/10_state.md R20 to R29 (R35 lists them all, and R38
says there is no hidden state), the reset input (spec/70_reset_and_hazards.md R230), and the host's side of the two
ports as plain data. MHE has no memory, no program counter and no flags (R31 to R34, R40), so State has none. -/

namespace Sys2Proof.Machine

/-- MODE, the message context (R22). Its 2-bit codes are `Mode.code`. -/
inductive Mode where
  /-- no message open -/
  | idle
  /-- MurmurHash3 message of UTF-16 code units -/
  | h3s
  /-- MurmurHash3 message of 32-bit integers -/
  | h3a
  /-- MurmurHash2 message of characters -/
  | h2
  deriving DecidableEq, Repr

/-- CAUSE (R29, R201). Its 3-bit codes are `Cause.code`; all eight are legal. -/
inductive Cause where
  | none | illegalOpcode | reservedBits | seedMissing | noMessage | shapeMismatch | lengthOverrun | lengthUnderrun
  deriving DecidableEq, Repr

/-- One action of the host at MHE's boundary: a transfer of the command port (R41), a read of the read port
(R42, R183), or a change of the reset input (R230; DESIGN CHOICE: its two edges are two actions, log entry 3). -/
inductive HostAction where
  | command (w : CommandWord)
  | read (address : ReadAddr)
  | assertReset
  | releaseReset
  deriving DecidableEq, Repr

/-- Why the machine stops with a fault: never. "MHE never stops accepting commands" (93_implementation_defined.md, R237);
an error is the action of R202 and the machine goes on. Nothing raises a fault, so the type has no constructor. -/
inductive Fault
  deriving DecidableEq, Repr

/-- Why the machine refuses an instruction. -/
inductive Refusal where
  /-- Raised only by an arm of `exec` whose instruction has no meaning yet; safe, since the run stops. No arm
  raises it in this model: all nine commands have their meaning. -/
  | notModelled (mnemonic : String)
  deriving DecidableEq, Repr

/-- The machine's state. The first twelve fields are the registers of R35; the last three are the model's own view
of the boundary (log entries 1, 3 and 4). -/
structure State where
  /-- SEED: the seed for the next init command (R20) -/
  seed : Word
  /-- SEED_VALID: a seed has been given since reset (R20) -/
  seedValid : Bool
  /-- MODE (R22) -/
  mode : Mode
  /-- H: the hash accumulator (R21) -/
  h : Word
  /-- COUNT: key bytes or characters of the message, modulo 2^32 (R24) -/
  count : Word
  /-- TAIL: byte j of the window at TAIL[8j+7:8j] (R25) -/
  tail : BitVec 24
  /-- TAILCNT: bytes held in TAIL, 0 to 3 (R25) -/
  tailcnt : BitVec 2
  /-- DECLEN: the declared length of a MurmurHash2 message (R26) -/
  declen : Word
  /-- RESULT: the output of the last successful final command (R27) -/
  result : Word
  /-- DONE: RESULT holds the hash of the last message and no error since (R28) -/
  done : Bool
  /-- ERR: an error since the last clear (R29) -/
  err : Bool
  /-- CAUSE: the first error's cause (R29) -/
  cause : Cause
  /-- the reset input is asserted (R230; the model's field, log entry 3) -/
  resetLine : Bool
  /-- what the host does next, oldest first (R15, R50; the model's field, log entry 1) -/
  inputs : List HostAction
  /-- what the read port has answered, newest first (R183; the model's field, log entry 4) -/
  reads : List (ReadAddr × Word)
  deriving DecidableEq, Repr

/-- The machine right after reset: R35's value in every register, the reset input released, and no action of the
host waiting. -/
def State.reset : State where
  seed := 0#32
  seedValid := false
  mode := .idle
  h := 0#32
  count := 0#32
  tail := 0#24
  tailcnt := 0#2
  declen := 0#32
  result := 0#32
  done := false
  err := false
  cause := .none
  resetLine := false
  inputs := []
  reads := []

end Sys2Proof.Machine
end

