-- ==== Sys2Proof/Machine/Ops.lean ====
section
/-! DEFINITION. The named operations the meanings share: the error action and its clearing (spec/60_exceptions.md R202,
R208), opening and closing a message, the message checks (R201, R204), absorbing one byte (spec/42_mh3.md R132,
spec/43_mh2.md R159), and reset (spec/70_reset_and_hazards.md R230). -/

namespace Sys2Proof.Machine

/-- The error action `fail(c)`, which is MHE's exception entry (R202, R206): CAUSE keeps the first cause, DONE is
cleared and the message is closed. No other state changes. -/
def State.fail (s : State) (c : Cause) : State :=
  { s with cause := if s.err then s.cause else c, err := true, done := false, mode := .idle }

/-- The clearing of an error, MHE's return from it (R208): `ERR <- 0; CAUSE <- 0`. -/
def State.clearError (s : State) : State := { s with err := false, cause := .none }

/-- Opens a message: the accumulator starts at `h0`, the length counter and the tail window are cleared, DONE and the
error are cleared (R133, R134, R160). SEED, SEED_VALID and RESULT keep their values. -/
def State.openMessage (s : State) (m : Mode) (h0 declared : Word) : State :=
  { s.clearError with
    h := h0, count := 0#32, declen := declared, tail := 0#24, tailcnt := 0#2, mode := m, done := false }

/-- Opens a message if a seed has been given, else fails with SEED_MISSING (R133, R134, R160). -/
def State.openSeeded (s : State) (m : Mode) (h0 declared : Word) : State :=
  if s.seedValid then s.openMessage m h0 declared else s.fail .seedMissing

/-- The checks every put and final command begins with, in R204's order: a message is open, else NO_MESSAGE; it is of
a family and shape the command accepts, else SHAPE_MISMATCH. Then the command's own body. -/
def State.inMessage (s : State) (accepts : Mode → Bool) (body : State → State) : State :=
  if s.mode = .idle then s.fail .noMessage
  else if accepts s.mode then body s
  else s.fail .shapeMismatch

/-- `TAIL[8*j+7 : 8*j] <- b`: the other bits of TAIL keep their values. -/
def putTailByte (tail : BitVec 24) (j : Nat) (b : Byte) : BitVec 24 :=
  (tail &&& ~~~(0xFF#24 <<< (8 * j))) ||| (b.setWidth 24 <<< (8 * j))

/-- The block word a fourth byte completes: `zext_32(TAIL) | (zext_32(b) << 24)` (R132, R159). -/
def blockWord (tail : BitVec 24) (b : Byte) : Word := tail.setWidth 32 ||| shl32 (zextByte b) 24

/-- Takes one byte into the stream of a message whose family has the block function `block` (R132, R159). -/
def State.absorb (s : State) (block : Word → Word → Word) (b : Byte) : State :=
  if s.tailcnt.toNat < Config.tailBytes then
    { s with
      count := add32 s.count 1#32
      tail := putTailByte s.tail s.tailcnt.toNat b
      tailcnt := s.tailcnt + 1#2 }
  else
    { s with
      count := add32 s.count 1#32
      h := block s.h (blockWord s.tail b)
      tail := 0#24
      tailcnt := 0#2 }

/-- Closes the message with its hash: H and RESULT take it, the tail window is cleared, MODE becomes IDLE and DONE 1
(R137, R162). COUNT, DECLEN, SEED, ERR and CAUSE keep their values. -/
def State.closeWith (s : State) (hash : Word) : State :=
  { s with h := hash, result := hash, tail := 0#24, tailcnt := 0#2, mode := .idle, done := true }

/-- Asserting the reset input sets every register to R35's value (R230). What the host will still do and what it has
already read are the host's and stay. -/
def State.assertReset (s : State) : State :=
  { State.reset with resetLine := true, inputs := s.inputs, reads := s.reads }

/-- Releasing the reset input: the engine executes commands again (log entry 3). -/
def State.releaseReset (s : State) : State := { s with resetLine := false }

end Sys2Proof.Machine
end

