-- ==== Sys2Proof/Machine/Control.lean ====
section
/-! DEFINITION. The control command SETSEED (spec/44_control.md section 1). -/

namespace Sys2Proof.Machine

/-- SETSEED: `SEED <- A; SEED_VALID <- 1`, in every MODE and with ERR = 1 too (R180). -/
def execSetseed (seed : Word) (s : State) : Host.Outcome State Fault Refusal :=
  .next { s with seed := seed, seedValid := true }

end Sys2Proof.Machine
end

