-- ==== Sys2Proof/Machine/Operands.lean ====
section
/-! DEFINITION. How an operand is split and formed: the Byte Encoder of spec/41_byte_encoder.md (big-endian, R43),
the character byte of MurmurHash2 (spec/43_mh2.md R152), and the reduction of the host's numbers to the operand A
(spec/30_encoding.md R62). -/

namespace Sys2Proof.Machine

/-- One code unit into two key bytes, upper byte first (R100). -/
def enc16 (c : CodeUnit) : List Byte := [c.extractLsb' 8 8, c.extractLsb' 0 8]

/-- The key of a UTF-16 string (R101). -/
def encString (text : List CodeUnit) : List Byte := text.flatMap enc16

/-- One 32-bit integer into four key bytes, most significant byte first (R102). -/
def enc32 (v : Word) : List Byte :=
  [v.extractLsb' 24 8, v.extractLsb' 16 8, v.extractLsb' 8 8, v.extractLsb' 0 8]

/-- The key of an integer array (R103). -/
def encInt32s (values : List Word) : List Byte := values.flatMap enc32

/-- The character byte: the low 8 bits of the code unit (R152). -/
def charByte (c : CodeUnit) : Byte := c.extractLsb' 0 8

/-- A host seed is given to SETSEED modulo 2^32 (R62, R181). -/
def seedOperand (seed : Nat) : Word := BitVec.ofNat 32 seed

/-- A length is given to H2INIT modulo 2^32 (R62, R151). -/
def lengthOperand (n : Nat) : Word := BitVec.ofNat 32 n

/-- A signed or unsigned 32-bit integer as its two's-complement bit pattern; a value outside [-2^31, 2^32 - 1] is no
32-bit integer and is the host's error (R104). -/
def intOperand? (x : Int) : Option Word :=
  if -(2 ^ 31) ≤ x ∧ x ≤ 2 ^ 32 - 1 then some (BitVec.ofInt 32 x) else none

end Sys2Proof.Machine
end

