-- ==== Sys2Proof/Machine/Mh2Mixer.lean ====
section
/-! DEFINITION. The MurmurHash2 mixer: the stage functions and the pure function of spec/43_mh2.md sections 1
and 2. It works on character bytes, not on the Byte Encoder's output (R3). -/

namespace Sys2Proof.Machine

/-- The constant m (R150). -/
def mh2M : Word := 0x5bd1e995#32

/-- The seed mixer: `h := seed XOR stringLength` (R151). -/
def mh2Seed (seed length : Word) : Word := seed ^^^ length

/-- The block mix (R153). -/
def mh2MixK (k : Word) : Word :=
  let k := mul32 k mh2M
  let k := k ^^^ shr32 k 24
  mul32 k mh2M

/-- One block into the accumulator (R154). -/
def mh2Block (h k : Word) : Word := mul32 h mh2M ^^^ mh2MixK k

/-- The tail handler: bytes at bit shifts 0, 8 and 16 (90_conflicts.md C3), then one multiply; no multiply for an
empty tail (R155, 92_eei_decisions.md D17). -/
def mh2Tail (h : Word) (t : List Byte) : Word :=
  if t.length = 0 then h
  else
    let h3 := if t.length ≥ 3 then h ^^^ shl32 (zextByte (t.getD 2 0#8)) 16 else h
    let h2 := if t.length ≥ 2 then h3 ^^^ shl32 (zextByte (t.getD 1 0#8)) 8 else h3
    mul32 (h2 ^^^ zextByte (t.getD 0 0#8)) mh2M

/-- The finalizer (R156). -/
def mh2Fmix (h : Word) : Word :=
  let h := h ^^^ shr32 h 13
  let h := mul32 h mh2M
  h ^^^ shr32 h 15

/-- hash2: MurmurHash2 of a string, on the low byte of each code unit (R157, R158). -/
def hash2 (text : List CodeUnit) (seed : Word) : Word :=
  let p := blockFold mh2Block (mh2Seed seed (lengthOperand text.length)) (text.map charByte)
  mh2Fmix (mh2Tail p.1 p.2)

end Sys2Proof.Machine
end

