-- ==== Sys2Proof/Machine/MurmurHash2.lean ====
section
/-! DEFINITION. The three MurmurHash2 commands (spec/43_mh2.md section 3). -/

namespace Sys2Proof.Machine

/-- `absorb2(b)`: one character byte into the stream (R159). -/
def State.absorb2 (s : State) (b : Byte) : State := s.absorb mh2Block b

/-- The hash H2FINAL gives: tail handler (only if the window holds a byte) and finalizer (R162). -/
def State.hash2Value (s : State) : Word :=
  mh2Fmix (if s.tailcnt ≠ 0#2 then mul32 (s.h ^^^ s.tail.setWidth 32) mh2M else s.h)

/-- H2INIT: opens a MurmurHash2 message and declares its length (R160). -/
def execH2init (length : Word) (s : State) : Host.Outcome State Fault Refusal :=
  .next (s.openSeeded .h2 (mh2Seed s.seed length) length)

/-- H2PUT: one character into the stream, unless the message already holds DECLEN characters (R161). -/
def execH2put (char : CodeUnit) (s : State) : Host.Outcome State Fault Refusal :=
  .next (s.inMessage (· == .h2) fun s =>
    if s.count = s.declen then s.fail .lengthOverrun else s.absorb2 (charByte char))

/-- H2FINAL: gives the result, if exactly DECLEN characters were put (R162). -/
def execH2final (s : State) : Host.Outcome State Fault Refusal :=
  .next (s.inMessage (· == .h2) fun s =>
    if s.count ≠ s.declen then s.fail .lengthUnderrun else s.closeWith s.hash2Value)

end Sys2Proof.Machine
end

