-- ==== Sys2Proof/Machine/Mh3Mixer.lean ====
section
/-! DEFINITION. The MurmurHash3 x86_32 mixer: the stage functions and pure functions of spec/42_mh3.md sections 1
and 2. -/

namespace Sys2Proof.Machine

/-- C1, the first multiplier of the pipeline (R120). -/
def mh3C1 : Word := 0xcc9e2d51#32

/-- C2, the second multiplier of the pipeline (R120). -/
def mh3C2 : Word := 0x1b873593#32

/-- M5, the multiplier of the block processor (R120). -/
def mh3M5 : Word := 5#32

/-- N1, the addend of the block processor (R120). -/
def mh3N1 : Word := 0xe6546b64#32

/-- F1, the first finalizer multiplier (R120). -/
def mh3F1 : Word := 0x85ebca6b#32

/-- F2, the second finalizer multiplier (R120). -/
def mh3F2 : Word := 0xc2b2ae35#32

/-- The multiply-rotate-multiply pipeline (R121). -/
def mh3MixK (k : Word) : Word := mul32 (rotl32 (mul32 k mh3C1) 15) mh3C2

/-- The block processor: one block word into the accumulator (R122). -/
def mh3Block (h k : Word) : Word := add32 (mul32 (rotl32 (h ^^^ mh3MixK k) 13) mh3M5) mh3N1

/-- The partial block word of the tail: the cumulative-xor ladder, each case with all lower cases' effects (R123). -/
def mh3TailWord (t : List Byte) : Word :=
  let k3 := if t.length ≥ 3 then 0#32 ^^^ shl32 (zextByte (t.getD 2 0#8)) 16 else 0#32
  let k2 := if t.length ≥ 2 then k3 ^^^ shl32 (zextByte (t.getD 1 0#8)) 8 else k3
  if t.length ≥ 1 then k2 ^^^ zextByte (t.getD 0 0#8) else k2

/-- The tail-byte handler: no rotate-13, multiply-5 or add-constant step (R124). -/
def mh3Tail (h : Word) (t : List Byte) : Word :=
  if t.length = 0 then h else h ^^^ mh3MixK (mh3TailWord t)

/-- The finalizer (R125). -/
def fmix32 (h : Word) : Word :=
  let h := h ^^^ shr32 h 16
  let h := mul32 h mh3F1
  let h := h ^^^ shr32 h 13
  let h := mul32 h mh3F2
  h ^^^ shr32 h 16

/-- HASH3: blocks in order from the seed (R126), the tail, the length fold (R127) and the finalizer (R128). -/
def hash3 (key : List Byte) (seed : Word) : Word :=
  let p := blockFold mh3Block seed key
  fmix32 (mh3Tail p.1 p.2 ^^^ BitVec.ofNat 32 key.length)

/-- hash3ForString (R129). -/
def hash3ForString (text : List CodeUnit) (seed : Nat) : Word := hash3 (encString text) (seedOperand seed)

/-- hash3ForInt32Array (R130). -/
def hash3ForInt32Array (values : List Word) (seed : Nat) : Word := hash3 (encInt32s values) (seedOperand seed)

end Sys2Proof.Machine
end

