-- ==== Sys2Proof/Machine/MurmurHash3.lean ====
section
/-! DEFINITION. The five MurmurHash3 commands (spec/42_mh3.md section 3). -/

namespace Sys2Proof.Machine

/-- `absorb3(b)`: one key byte into the stream (R132). -/
def State.absorb3 (s : State) (b : Byte) : State := s.absorb mh3Block b

/-- Absorbs the key bytes in order (R135, R136). -/
def State.absorb3All (s : State) (bytes : List Byte) : State := bytes.foldl State.absorb3 s

/-- The hash H3FINAL gives: tail handler, length fold, finalizer (R137). -/
def State.hash3Value (s : State) : Word :=
  let h := if s.tailcnt ≠ 0#2 then s.h ^^^ mh3MixK (s.tail.setWidth 32) else s.h
  fmix32 (h ^^^ s.count)

/-- H3INIT_S: opens a message of the string shape; the seed mixer is `H <- SEED` (R133, R126). -/
def execH3initS (s : State) : Host.Outcome State Fault Refusal := .next (s.openSeeded .h3s s.seed 0#32)

/-- H3INIT_A: opens a message of the int32-array shape (R134). -/
def execH3initA (s : State) : Host.Outcome State Fault Refusal := .next (s.openSeeded .h3a s.seed 0#32)

/-- H3PUT16: one code unit through the Byte Encoder into the stream (R135). -/
def execH3put16 (unit : CodeUnit) (s : State) : Host.Outcome State Fault Refusal :=
  .next (s.inMessage (· == .h3s) fun s => s.absorb3All (enc16 unit))

/-- H3PUT32: one 32-bit integer through the Byte Encoder into the stream (R136). -/
def execH3put32 (value : Word) (s : State) : Host.Outcome State Fault Refusal :=
  .next (s.inMessage (· == .h3a) fun s => s.absorb3All (enc32 value))

/-- H3FINAL: gives the result of a message of either MurmurHash3 shape (R137). -/
def execH3final (s : State) : Host.Outcome State Fault Refusal :=
  .next (s.inMessage (fun m => m == .h3s || m == .h3a) fun s => s.closeWith s.hash3Value)

end Sys2Proof.Machine
end

