-- ==== Sys2Proof/Machine/Dispatch.lean ====
section
/-! DEFINITION. One arm per constructor of Instr, each one call of its meaning. -/

namespace Sys2Proof.Machine

-- The opcode map of spec/30_encoding.md R63, row by row.
def exec (i : Instr) (s : State) : Host.Outcome State Fault Refusal :=
  match i with
  | .setseed seed => Sys2Proof.Machine.execSetseed seed s
  | .h3initS => Sys2Proof.Machine.execH3initS s
  | .h3initA => Sys2Proof.Machine.execH3initA s
  | .h3put16 unit => Sys2Proof.Machine.execH3put16 unit s
  | .h3put32 value => Sys2Proof.Machine.execH3put32 value s
  | .h3final => Sys2Proof.Machine.execH3final s
  | .h2init length => Sys2Proof.Machine.execH2init length s
  | .h2put char => Sys2Proof.Machine.execH2put char s
  | .h2final => Sys2Proof.Machine.execH2final s

end Sys2Proof.Machine
end

