-- ==== Sys2Proof/Machine/Flags.lean ====
section
/-! DEFINITION. MHE has no arithmetic flags (spec/10_state.md R33). Its status bits are MODE, DONE, ERR, CAUSE,
SEED_VALID and TAILCNT, seen through STATUS (R30); this file gives their codes, STATUS, and the read port that shows it
(spec/44_control.md R182, R183). -/

namespace Sys2Proof.Machine

/-- The 2-bit code of MODE (R22). -/
def Mode.code : Mode → BitVec 2
  | .idle => 0#2
  | .h3s => 1#2
  | .h3a => 2#2
  | .h2 => 3#2

/-- The 3-bit code of CAUSE (R201). -/
def Cause.code : Cause → BitVec 3
  | .none => 0#3
  | .illegalOpcode => 1#3
  | .reservedBits => 2#3
  | .seedMissing => 3#3
  | .noMessage => 4#3
  | .shapeMismatch => 5#3
  | .lengthOverrun => 6#3
  | .lengthUnderrun => 7#3

/-- STATUS: `zext_32(TAILCNT ++ SEED_VALID ++ CAUSE ++ ERR ++ DONE ++ MODE)`, the left operand in the higher bits
(R30). -/
def State.status (s : State) : Word :=
  (s.tailcnt ++ BitVec.ofBool s.seedValid ++ s.cause.code ++ BitVec.ofBool s.err ++ BitVec.ofBool s.done
    ++ s.mode.code).setWidth 32

/-- ReadPort(RA): the eight words of R182; address 7 reads 0 in every state (R183). -/
def State.readPort (s : State) (ra : ReadAddr) : Word :=
  if ra = 0#3 then s.status
  else if ra = 1#3 then s.result
  else if ra = 2#3 then s.seed
  else if ra = 3#3 then s.h
  else if ra = 4#3 then s.count
  else if ra = 5#3 then s.declen
  else if ra = 6#3 then s.tail.setWidth 32
  else 0#32

end Sys2Proof.Machine
end

