-- ==== Sys2Proof/Machine/Port.lean ====
section
/-! DEFINITION. The boundary of MHE: what the engine does with one action of the host (spec/20_memory.md R41, R42, R48,
R50; spec/44_control.md R183; spec/70_reset_and_hazards.md R230). -/

namespace Sys2Proof.Machine

/-- Executes one command word: the decode checks of R64 first, each failing one with its cause, then the command. -/
def takeCommand (w : CommandWord) (s : State) : Host.Outcome State Fault Refusal :=
  match decode w with
  | .ok i => exec i s
  | .illegalOpcode => .next (s.fail .illegalOpcode)
  | .reservedBits => .next (s.fail .reservedBits)

/-- Answers one read: the value goes to the host's record and the engine does not change (R48, R183). -/
def State.answerRead (s : State) (ra : ReadAddr) : State :=
  { s with reads := (ra, s.readPort ra) :: s.reads }

/-- One action of the host. "No command issued while reset is asserted executes" (R230). -/
def takeAction (a : HostAction) (s : State) : Host.Outcome State Fault Refusal :=
  match a with
  | .command w => if s.resetLine then .next s else takeCommand w s
  | .read ra => .next (s.answerRead ra)
  | .assertReset => .next s.assertReset
  | .releaseReset => .next s.releaseReset

/-- With no action of the host the engine waits, and its state survives (R206, R218). -/
def waitForHost (s : State) : Host.Outcome State Fault Refusal := .next s

/-- The host's next action becomes the command word `w`, and the reset input is released so that it executes. -/
def State.issueCommand (s : State) (w : CommandWord) : State :=
  { s with inputs := .command w :: s.inputs, resetLine := false }

end Sys2Proof.Machine
end

