-- ==== Sys2Proof/Machine/Step.lean ====
section
/-! DEFINITION. One step: the engine takes the host's oldest waiting action. MHE fetches nothing and has no program
counter (spec/10_state.md R32, spec/20_memory.md R52). -/

namespace Sys2Proof.Machine

/-- One step of the machine: the oldest action of the host is taken off the list and carried out whole, so that
actions happen in the order the host makes them (R47, R50). -/
def step (s : State) : Host.Outcome State Fault Refusal :=
  match s.inputs with
  | [] => waitForHost s
  | a :: rest => takeAction a { s with inputs := rest }

/-- The state in which the very next step executes the command word whose bits are `w` (log entry 1): it stands for
the host's write of that word to the command port. -/
def State.withFetchWord (s : State) (nbits w : Nat) : State :=
  s.issueCommand (BitVec.ofNat Config.commandBits (w % 2 ^ nbits))

end Sys2Proof.Machine
end

