-- ==== Sys2Proof/Machine/Programs.lean ====
section
/-! DEFINITION. The host's side: the external operations as command programs (spec/44_control.md R184 to R186), taking
a result (R187), and the host's own rejection of arguments that have no command form (R181, R188;
spec/93_implementation_defined.md I10). No step of the machine uses this file. -/

namespace Sys2Proof.Machine

/-- The host writes the command to the command port. -/
def issue (i : Instr) : HostAction := .command (encode i)

/-- The closing reads of STATUS and RESULT (R184 to R186). -/
def closingReads : List HostAction := [.read 0#3, .read 1#3]

/-- `hash3ForString(text, seed)` as a command program (R184). -/
def hash3ForStringProgram (text : List CodeUnit) (seed : Nat) : List HostAction :=
  [issue (.setseed (seedOperand seed)), issue .h3initS] ++ text.map (fun u => issue (.h3put16 u))
    ++ [issue .h3final] ++ closingReads

/-- `hash3ForInt32Array(values, seed)` as a command program (R185). -/
def hash3ForInt32ArrayProgram (values : List Word) (seed : Nat) : List HostAction :=
  [issue (.setseed (seedOperand seed)), issue .h3initA] ++ values.map (fun v => issue (.h3put32 v))
    ++ [issue .h3final] ++ closingReads

/-- `hash2(text, seed)` as a command program (R186). -/
def hash2Program (text : List CodeUnit) (seed : Nat) : List HostAction :=
  [issue (.setseed (seedOperand seed)), issue (.h2init (lengthOperand text.length))]
    ++ text.map (fun c => issue (.h2put c)) ++ [issue .h2final] ++ closingReads

/-- Taking a result: RESULT is the hash exactly when the STATUS read shows DONE = 1 and ERR = 0 (R187). -/
def takeResult (status result : Word) : Option Word :=
  if status.getLsbD 2 && !status.getLsbD 3 then some result else none

/-- A caller's argument, as the source's rules classify it (R181, R188): absent, a string, an array of integers, a
number, or a value of no expected type. -/
inductive HostValue where
  | missing
  | string (text : List CodeUnit)
  | array (values : List Int)
  | number (n : Nat)
  | other
  deriving DecidableEq, Repr

/-- The three external operations (90_conflicts.md C1). -/
inductive Operation where
  | hash3ForString | hash3ForInt32Array | hash2
  deriving DecidableEq, Repr

/-- The commands a host issues for a call, or none where it must reject the call before it issues any: a missing or
non-numeric seed, a missing input, an input of the wrong shape (R181, R188), an array element that is no 32-bit integer
(R104). -/
def hostCall (op : Operation) (input seed : HostValue) : Option (List HostAction) :=
  match op, input, seed with
  | .hash3ForString, .string text, .number n => some (hash3ForStringProgram text n)
  | .hash3ForInt32Array, .array values, .number n =>
    (values.mapM intOperand?).map fun vs => hash3ForInt32ArrayProgram vs n
  | .hash2, .string text, .number n => some (hash2Program text n)
  | _, _, _ => none

end Sys2Proof.Machine
end

