-- ==== Sys2Proof/Machine/Assembler.lean ====
section
/-! DEFINITION. The spec's assembler and its pseudo-instructions (spec/30_encoding.md R69, R70) and the character
notation (spec/00_scope.md R18). No step of the machine uses this file. -/

namespace Sys2Proof.Machine

/-- The UTF-16 code units of a character: one below 0x10000, else a high and a low surrogate (R18; the surrogate
arithmetic is PRESUMED, log entry 8). -/
def utf16Units (c : Char) : List CodeUnit :=
  if c.toNat < 0x10000 then [BitVec.ofNat 16 c.toNat]
  else
    [BitVec.ofNat 16 (0xD800 + (c.toNat - 0x10000) / 0x400),
     BitVec.ofNat 16 (0xDC00 + (c.toNat - 0x10000) % 0x400)]

/-- The UTF-16 code units of a text (R18). -/
def utf16 (text : List Char) : List CodeUnit := text.flatMap utf16Units

/-- The three ways R69 writes an operand, digits most significant first (the digits' spelling is left out, log
entry 10). -/
inductive AsmOperand where
  | decimal (digits : List (Fin 10))
  | hex (digits : List (Fin 16))
  | quoted (c : Char)
  deriving DecidableEq, Repr

/-- One assembler line: a command with its operand, or a host read `RD name` (R69). -/
inductive AsmLine where
  | command (op : Opcode) (operand : Option AsmOperand)
  | rdStatus | rdResult | rdSeed | rdH | rdCount | rdDeclen | rdTail
  deriving DecidableEq, Repr

/-- The number an operand writes for an opcode's class; a quoted character is for class U only and must be one code
unit (R69). -/
def AsmOperand.value? (cls : OperandClass) : AsmOperand → Option Nat
  | .decimal [] => none
  | .decimal (d :: ds) => some ((d :: ds).foldl (fun n x => 10 * n + x.val) 0)
  | .hex [] => none
  | .hex (d :: ds) => some ((d :: ds).foldl (fun n x => 16 * n + x.val) 0)
  | .quoted c => if cls = .u ∧ c.toNat < 0x10000 then some c.toNat else none

/-- The operand fits the class's width; the assembler refuses one that does not (R69). -/
def operandFits : OperandClass → Nat → Bool
  | .z, _ => false
  | .u, n => n < 2 ^ 16
  | .w, n => n < 2 ^ 32

/-- `(OP << 56) | A`, with RSV = 0 (R69). -/
def commandWordOf (op : Opcode) (a : Nat) : CommandWord := (op.code.setWidth 64 <<< 56) ||| BitVec.ofNat 64 a

/-- A command line's word: no operand for class Z, one that fits for classes U and W (R69). -/
def assembleCommand (op : Opcode) (operand : Option AsmOperand) : Option CommandWord :=
  match operand with
  | none => if op.operandClass = .z then some (commandWordOf op 0) else none
  | some x =>
    match x.value? op.operandClass with
    | none => none
    | some n => if operandFits op.operandClass n then some (commandWordOf op n) else none

/-- A line as the action the host makes; a read line is a read-port access at the name's address (R69, R182). -/
def assemble : AsmLine → Option HostAction
  | .command op operand => (assembleCommand op operand).map .command
  | .rdStatus => some (.read 0#3)
  | .rdResult => some (.read 1#3)
  | .rdSeed => some (.read 2#3)
  | .rdH => some (.read 3#3)
  | .rdCount => some (.read 4#3)
  | .rdDeclen => some (.read 5#3)
  | .rdTail => some (.read 6#3)

/-- The pseudo-instructions of R70. -/
inductive Pseudo where
  | h3str (seed : Nat) (text : List Char)
  | h3arr (seed : Nat) (values : List Word)
  | h2str (seed : Nat) (text : List Char)
  deriving DecidableEq, Repr

/-- The expansion of a pseudo-instruction (R70). -/
def Pseudo.expand : Pseudo → List HostAction
  | .h3str seed text => hash3ForStringProgram (utf16 text) seed
  | .h3arr seed values => hash3ForInt32ArrayProgram values seed
  | .h2str seed text => hash2Program (utf16 text) seed

end Sys2Proof.Machine
end

