-- ==== Sys2Proof/Safety.lean ====
section
/-! DEFINITION. What counts as a correct run, in the terms the claims use: the invariants of spec/10_state.md R36, the
error conditions of spec/60_exceptions.md R201 in the order of R204, runs of several steps, and the message machine the
engine must refine (spec/00_scope.md R16: the pure functions are normative, the commands are their realisation). -/

namespace Sys2Proof.Machine

/-- R36, item by item. Item 6 speaks of a final command in the past; DONE = 1 is the state's own record of it (log
entry 9). The last item is what makes item 8 last: an open message has no error. -/
structure State.Inv (s : State) : Prop where
  /-- item 1: `TAIL[23 : 8*TAILCNT] = 0` when TAILCNT < 3 (for 3 the slice is empty) -/
  tailClear : s.tail >>> (8 * s.tailcnt.toNat) = 0#24
  /-- item 2 -/
  h3aNoTail : s.mode = .h3a → s.tailcnt = 0#2
  /-- item 3 -/
  h3sTail : s.mode = .h3s → s.tailcnt = 0#2 ∨ s.tailcnt = 2#2
  /-- item 4 -/
  h3Count : s.mode = .h3s ∨ s.mode = .h3a → s.count.toNat % 4 = s.tailcnt.toNat
  /-- item 5 -/
  h2Count : s.mode = .h2 → s.count.toNat ≤ s.declen.toNat ∧ s.count.toNat % 4 = s.tailcnt.toNat
  /-- item 6 -/
  doneNoTail : s.done = true → s.tailcnt = 0#2
  /-- item 7 -/
  errCause : s.err = false ↔ s.cause = .none
  /-- item 8 -/
  doneClean : s.done = true → s.err = false ∧ s.mode = .idle
  /-- derived from R133, R134, R160 and R202 -/
  openClean : s.mode ≠ .idle → s.err = false

/-- While the reset input is asserted every register has R35's value (R230). -/
def State.HeldInReset (s : State) : Prop :=
  s.resetLine = true →
    s = { State.reset with resetLine := true, inputs := s.inputs, reads := s.reads }

/-- A message is open only after a seed was given, a MurmurHash3 message has DECLEN = 0, and with DONE = 1 no
message is open and the accumulator is the result (derived from R133, R134, R137, R160, R162 and R180). -/
structure State.SeedInv (s : State) : Prop where
  openSeeded : s.mode ≠ .idle → s.seedValid = true
  h3Declen : s.mode = .h3s ∨ s.mode = .h3a → s.declen = 0#32
  doneResult : s.done = true → s.mode = .idle ∧ s.h = s.result

/-- The command failed: the state is the state before it with only R202 applied (R203). -/
def FailedTo (s t : State) : Prop := ∃ c, c ≠ Cause.none ∧ t = s.fail c

/-- The init commands (R133, R134, R160). -/
def isInit : Instr → Bool
  | .h3initS => true
  | .h3initA => true
  | .h2init _ => true
  | .setseed _ => false
  | .h3put16 _ => false
  | .h3put32 _ => false
  | .h3final => false
  | .h2put _ => false
  | .h2final => false

/-- The put commands (R135, R136, R161). -/
def isPut : Instr → Bool
  | .h3put16 _ => true
  | .h3put32 _ => true
  | .h2put _ => true
  | .setseed _ => false
  | .h3initS => false
  | .h3initA => false
  | .h3final => false
  | .h2init _ => false
  | .h2final => false

/-- The final commands (R137, R162). -/
def isFinal : Instr → Bool
  | .h3final => true
  | .h2final => true
  | .setseed _ => false
  | .h3initS => false
  | .h3initA => false
  | .h3put16 _ => false
  | .h3put32 _ => false
  | .h2init _ => false
  | .h2put _ => false

/-- The error conditions of a command word in a state, cause by cause as R201's table gives them, in the order of
R204. -/
def errorConditions (w : CommandWord) (s : State) : List (Cause × Bool) :=
  let op := w.extractLsb' 56 8
  let rsv := w.extractLsb' 32 24
  let classZ := [0x10#8, 0x11#8, 0x14#8, 0x22#8].contains op
  let classU := [0x12#8, 0x21#8].contains op
  let classW := [0x01#8, 0x13#8, 0x20#8].contains op
  [ (.illegalOpcode, !(classZ || classU || classW)),
    (.reservedBits, rsv != 0#24),
    (.reservedBits, (classZ && w.extractLsb' 0 32 != 0#32) || (classU && w.extractLsb' 16 16 != 0#16)),
    (.seedMissing, [0x10#8, 0x11#8, 0x20#8].contains op && !s.seedValid),
    (.noMessage, [0x12#8, 0x13#8, 0x14#8, 0x21#8, 0x22#8].contains op && s.mode == .idle),
    (.shapeMismatch,
      (op == 0x12#8 && s.mode != .h3s) || (op == 0x13#8 && s.mode != .h3a) || (op == 0x14#8 && s.mode == .h2)
        || ((op == 0x21#8 || op == 0x22#8) && (s.mode == .h3s || s.mode == .h3a))),
    (.lengthOverrun, op == 0x21#8 && s.count == s.declen),
    (.lengthUnderrun, op == 0x22#8 && s.count != s.declen) ]

/-- The first condition that holds decides the cause (R64, R204). -/
def firstCause (w : CommandWord) (s : State) : Option Cause :=
  ((errorConditions w s).find? (·.2)).map (·.1)

/-- Commands one after another, with nothing of the host's between them (R47, R50). -/
def execAll : List Instr → State → Host.Outcome State Fault Refusal
  | [], s => .next s
  | i :: is, s =>
    match exec i s with
    | .next t => execAll is t
    | .fault r => .fault r
    | .refused r => .refused r

/-- `n` steps of the machine. -/
def runSteps : Nat → State → Host.Outcome State Fault Refusal
  | 0, s => .next s
  | n + 1, s =>
    match step s with
    | .next t => runSteps n t
    | .fault r => .fault r
    | .refused r => .refused r

/-- The key bytes a MurmurHash3 command feeds: its encoder output for a put (R135, R136), none for another command. -/
def keyBytes : Instr → List Byte
  | .h3put16 u => enc16 u
  | .h3put32 v => enc32 v
  | .setseed _ => []
  | .h3initS => []
  | .h3initA => []
  | .h3final => []
  | .h2init _ => []
  | .h2put _ => []
  | .h2final => []

/-- The host carries out `program` from the state `s` and reads STATUS with DONE = 1 and ERR = 0, and then `hash` at
RESULT, so that it takes `hash` (R184 to R187). What it had planned after the program is still to come. -/
def ProgramGives (program : List HostAction) (hash : Word) (s : State) : Prop :=
  ∀ rest, s.inputs = program ++ rest →
    ∃ t status, runSteps program.length s = .next t ∧ t.inputs = rest
      ∧ t.reads = (1#3, hash) :: (0#3, status) :: s.reads
      ∧ status.getLsbD 2 = true ∧ status.getLsbD 3 = false ∧ takeResult status hash = some hash

/-- The TAIL that holds the bytes of `t`, byte j at bits [8j+7:8j] and zero above (R25). -/
def packTail : List Byte → BitVec 24
  | [] => 0#24
  | b :: t => b.setWidth 24 ||| (packTail t <<< 8)

/-- The engine has absorbed exactly `key` into an accumulator that started at `h0`: COUNT, TAILCNT, TAIL and H are as
R138 says, for the family with the block function `block`. -/
structure State.Absorbed (s : State) (block : Word → Word → Word) (h0 : Word) (key : List Byte) : Prop where
  count : s.count = BitVec.ofNat 32 key.length
  tailcnt : s.tailcnt = BitVec.ofNat 2 key.length
  tail : s.tail = packTail (blockFold block h0 key).2
  h : s.h = (blockFold block h0 key).1

/-- A message as the source sees it: the whole input so far, not yet hashed (DOC00's calls; R16). -/
inductive Message where
  | none
  /-- a MurmurHash3 message of code units, with its seed -/
  | string (seed : Word) (text : List CodeUnit)
  /-- a MurmurHash3 message of 32-bit integers, with its seed -/
  | array (seed : Word) (values : List Word)
  /-- a MurmurHash2 message, with its seed and declared length -/
  | chars (seed declared : Word) (text : List CodeUnit)
  deriving DecidableEq, Repr

/-- The message machine: a seed if one was given, the open message, the answer of the last message if it stands, and
the first error since the last clear. It keeps whole inputs and calls the pure functions. -/
structure Session where
  seed : Option Word
  message : Message
  answer : Option Word
  error : Cause
  deriving DecidableEq, Repr

/-- Nothing given yet (R35). -/
def Session.fresh : Session := ⟨none, .none, none, .none⟩

/-- An `InvalidArgument`: no partial result, and the first cause is kept (R202). -/
def Session.reject (g : Session) (c : Cause) : Session :=
  { g with message := .none, answer := none, error := if g.error = .none then c else g.error }

/-- Opens a message with the seed given, if one was given (R20, R209). -/
def Session.start (g : Session) (m : Word → Message) : Session :=
  match g.seed with
  | none => g.reject .seedMissing
  | some σ => { g with message := m σ, answer := none, error := .none }

/-- One command of the message machine, from the source's operations and the causes of R201. -/
def Session.command (g : Session) : Instr → Session
  | .setseed σ => { g with seed := some σ }
  | .h3initS => g.start fun σ => .string σ []
  | .h3initA => g.start fun σ => .array σ []
  | .h2init n => g.start fun σ => .chars σ n []
  | .h3put16 u =>
    match g.message with
    | .none => g.reject .noMessage
    | .string σ text => { g with message := .string σ (text ++ [u]) }
    | .array _ _ => g.reject .shapeMismatch
    | .chars _ _ _ => g.reject .shapeMismatch
  | .h3put32 v =>
    match g.message with
    | .none => g.reject .noMessage
    | .string _ _ => g.reject .shapeMismatch
    | .array σ values => { g with message := .array σ (values ++ [v]) }
    | .chars _ _ _ => g.reject .shapeMismatch
  | .h3final =>
    match g.message with
    | .none => g.reject .noMessage
    | .string σ text => { g with message := .none, answer := some (hash3ForString text σ.toNat) }
    | .array σ values => { g with message := .none, answer := some (hash3ForInt32Array values σ.toNat) }
    | .chars _ _ _ => g.reject .shapeMismatch
  | .h2put c =>
    match g.message with
    | .none => g.reject .noMessage
    | .string _ _ => g.reject .shapeMismatch
    | .array _ _ => g.reject .shapeMismatch
    | .chars σ n text =>
      if text.length = n.toNat then g.reject .lengthOverrun
      else { g with message := .chars σ n (text ++ [c]) }
  | .h2final =>
    match g.message with
    | .none => g.reject .noMessage
    | .string _ _ => g.reject .shapeMismatch
    | .array _ _ => g.reject .shapeMismatch
    | .chars σ n text =>
      if text.length = n.toNat then { g with message := .none, answer := some (hash2 text σ) }
      else g.reject .lengthUnderrun

/-- One action of the host, as the message machine sees it. -/
def Session.action (g : Session) (inReset : Bool) : HostAction → Session
  | .command w =>
    if inReset then g
    else
      match decode w with
      | .ok i => g.command i
      | .illegalOpcode => g.reject .illegalOpcode
      | .reservedBits => g.reject .reservedBits
  | .read _ => g
  | .assertReset => Session.fresh
  | .releaseReset => g

/-- The engine's message context holds the message. -/
def State.Holds (s : State) : Message → Prop
  | .none => s.mode = .idle
  | .string σ text => s.mode = .h3s ∧ s.Absorbed mh3Block σ (encString text)
  | .array σ values => s.mode = .h3a ∧ s.Absorbed mh3Block σ (encInt32s values)
  | .chars σ n text =>
    s.mode = .h2 ∧ s.declen = n ∧ text.length ≤ n.toNat ∧ s.Absorbed mh2Block (σ ^^^ n) (text.map charByte)

/-- The engine's state realises the message machine's: the seed, the message in its streamed form, the answer under
DONE, the first error under ERR. -/
structure State.Refines (s : State) (g : Session) : Prop where
  seed : g.seed = if s.seedValid then some s.seed else none
  message : s.Holds g.message
  answer : g.answer = if s.done then some s.result else none
  cause : g.error = s.cause
  err : s.err = false ↔ s.cause = .none

end Sys2Proof.Machine
end

