-- ==== Sys2Proof/Certificates/Slice0/Obligations.lean ====
section
/-! DEFINITION. The statements for the provers: what the numbered rules of spec/ say the commands and the machine do.
Where a statement speaks of a command word, its fields are written as slices of the word, not with the decoder's own
functions. -/

open Sys2Proof Sys2Proof.Machine

/-! ## Reset -/

/-- R35, the table of reset values. -/
def Obligations.ResetLeavesTheResetTable : Prop :=
  State.reset.seed = 0x00000000#32 ∧ State.reset.seedValid = false ∧ State.reset.mode = .idle
    ∧ State.reset.h = 0x00000000#32 ∧ State.reset.count = 0x00000000#32 ∧ State.reset.tail = 0x000000#24
    ∧ State.reset.tailcnt = 0#2 ∧ State.reset.declen = 0x00000000#32 ∧ State.reset.result = 0x00000000#32
    ∧ State.reset.done = false ∧ State.reset.err = false ∧ State.reset.cause = .none

/-- R230: asserting the reset input in any state gives every register R35's value, so STATUS reads 0; a command issued
while it is asserted does not execute. That the host's later actions and earlier reads stay is the model's own choice
(log entries 1, 3 and 4). -/
def Obligations.AssertedResetClearsAndHolds : Prop :=
  (∀ (s : State) (rest : List HostAction), s.inputs = .assertReset :: rest →
      step s = .next { State.reset with resetLine := true, inputs := rest, reads := s.reads })
    ∧ (∀ (s t : State) (rest : List HostAction), s.inputs = .assertReset :: rest → step s = .next t →
        t.status = 0x00000000#32)
    ∧ ∀ (s : State) (w : CommandWord) (rest : List HostAction), s.resetLine = true →
        s.inputs = .command w :: rest → step s = .next { s with inputs := rest }

/-- R230 as an invariant: while the reset input is asserted no step moves a register from R35's value. The level of the
reset input and its two actions are the model's own (log entry 3). -/
def Obligations.StepsKeepRegistersResetWhileHeld : Prop :=
  ∀ s t : State, s.HeldInReset → step s = .next t → t.HeldInReset

/-! ## Encoding -/

/-- Words of R69, R135, R137, R160 and 95_test_vectors.md decode to the commands they stand for. -/
def Obligations.SpecExampleWordsDecode : Prop :=
  decode 0x01000000000003E8#64 = .ok (.setseed 1000#32) ∧ decode 0x1000000000000000#64 = .ok .h3initS
    ∧ decode 0x1200000000000073#64 = .ok (.h3put16 0x0073#16) ∧ decode 0x13000000AACC9965#64 = .ok (.h3put32 0xAACC9965#32)
    ∧ decode 0x1400000000000000#64 = .ok .h3final ∧ decode 0x2000000000000005#64 = .ok (.h2init 5#32)
    ∧ decode 0x2100000000000064#64 = .ok (.h2put 0x0064#16) ∧ decode 0x2200000000000000#64 = .ok .h2final

/-- R69 with R60: the decoder gives back every command from its word, with every operand. -/
def Obligations.DecodeOfEncodeIsTheCommand : Prop :=
  ∀ i : Instr, decode (encode i) = .ok i

/-- R60 with R66: a word that decodes has no other spelling, so no bit of it is ignored. -/
def Obligations.DecodedWordIsItsOwnEncoding : Prop :=
  ∀ (w : CommandWord) (i : Instr), decode w = .ok i → encode i = w

/-- R63 with R60 and R66: the decoder accepts a word exactly when its RSV is 0 and a row of the match and mask table
holds it, and it reads that row's opcode. RSV = 0 is asked for beside the printed masks, which leave out its bits
[39:32]; that reading is the model's (log entry 14). -/
def Obligations.DecoderAgreesWithMatchAndMask : Prop :=
  ∀ w : CommandWord,
    ((∃ i, decode w = .ok i) ↔ wellFormedWord w = true)
      ∧ ∀ r ∈ opcodeTable, r.matches w = true → w.extractLsb' 32 24 = 0#24 → ∃ i, decode w = .ok i ∧ i.opcode = r.opcode

/-- R65: an unassigned OP fails with ILLEGAL_OPCODE, whatever RSV and A; the all-zero word is illegal. -/
def Obligations.UnassignedOpcodesAreIllegal : Prop :=
  (∀ (w : CommandWord) (s : State),
      let op := (w.extractLsb' 56 8).toNat
      (op = 0x00 ∨ (0x02 ≤ op ∧ op ≤ 0x0F) ∨ (0x15 ≤ op ∧ op ≤ 0x1F) ∨ (0x23 ≤ op ∧ op ≤ 0xFF)) →
        takeCommand w s = .next (s.fail .illegalOpcode))
    ∧ ∀ s : State, takeCommand 0x0000000000000000#64 s = .next (s.fail .illegalOpcode)

/-- R66 with R61's classes: in an assigned command a 1 in RSV or in a must-be-zero bit of A fails with
RESERVED_BITS. -/
def Obligations.ReservedBitsAreNeverIgnored : Prop :=
  ∀ (w : CommandWord) (s : State),
    let op := w.extractLsb' 56 8
    ((op ∈ [0x01#8, 0x10#8, 0x11#8, 0x12#8, 0x13#8, 0x14#8, 0x20#8, 0x21#8, 0x22#8] ∧ w.extractLsb' 32 24 ≠ 0#24)
      ∨ (op ∈ [0x10#8, 0x11#8, 0x14#8, 0x22#8] ∧ w.extractLsb' 0 32 ≠ 0#32)
      ∨ (op ∈ [0x12#8, 0x21#8] ∧ w.extractLsb' 16 16 ≠ 0#16)) →
    takeCommand w s = .next (s.fail .reservedBits)

/-- R69: a line the assembler accepts is a command of the opcode and the operand it was written with. -/
def Obligations.AssembledLinesDecode : Prop :=
  ∀ (op : Opcode) (x : Option AsmOperand) (w : CommandWord), assembleCommand op x = some w →
    ∃ i, decode w = .ok i ∧ i.opcode = op
      ∧ (match x with
          | none => i.operand = 0#32
          | some x => ∃ n, x.value? op.operandClass = some n ∧ i.operand.toNat = n)

/-! ## Commands -/

/-- R180 whole. -/
def Obligations.SetseedLoadsTheSeed : Prop :=
  (∀ (a : Word) (s : State), exec (.setseed a) s = .next { s with seed := a, seedValid := true })
    ∧ ∀ (w : CommandWord) (s : State), w.extractLsb' 56 8 = 0x01#8 →
        takeCommand w s =
          if w.extractLsb' 32 24 = 0#24 then .next { s with seed := w.extractLsb' 0 32, seedValid := true }
          else .next (s.fail .reservedBits)

/-- R133 whole. -/
def Obligations.H3InitSOpensStringMessage : Prop :=
  (∀ s : State, s.seedValid = true →
      exec .h3initS s = .next { s with
        h := s.seed, count := 0#32, declen := 0#32, tail := 0#24, tailcnt := 0#2,
        mode := .h3s, done := false, err := false, cause := .none })
    ∧ (∀ s : State, s.seedValid = false → exec .h3initS s = .next (s.fail .seedMissing))
    ∧ ∀ (w : CommandWord) (s : State), w.extractLsb' 56 8 = 0x10#8 →
        takeCommand w s = if w = 0x1000000000000000#64 then exec .h3initS s else .next (s.fail .reservedBits)

/-- R134 whole. -/
def Obligations.H3InitAOpensArrayMessage : Prop :=
  (∀ s : State, s.seedValid = true →
      exec .h3initA s = .next { s with
        h := s.seed, count := 0#32, declen := 0#32, tail := 0#24, tailcnt := 0#2,
        mode := .h3a, done := false, err := false, cause := .none })
    ∧ (∀ s : State, s.seedValid = false → exec .h3initA s = .next (s.fail .seedMissing))
    ∧ ∀ (w : CommandWord) (s : State), w.extractLsb' 56 8 = 0x11#8 →
        takeCommand w s = if w = 0x1100000000000000#64 then exec .h3initA s else .next (s.fail .reservedBits)

/-- R160 whole. -/
def Obligations.H2InitOpensMessageWithLength : Prop :=
  (∀ (n : Word) (s : State), s.seedValid = true →
      exec (.h2init n) s = .next { s with
        h := s.seed ^^^ n, declen := n, count := 0#32, tail := 0#24, tailcnt := 0#2,
        mode := .h2, done := false, err := false, cause := .none })
    ∧ (∀ (n : Word) (s : State), s.seedValid = false → exec (.h2init n) s = .next (s.fail .seedMissing))
    ∧ ∀ (w : CommandWord) (s : State), w.extractLsb' 56 8 = 0x20#8 →
        takeCommand w s =
          if w.extractLsb' 32 24 = 0#24 then exec (.h2init (w.extractLsb' 0 32)) s else .next (s.fail .reservedBits)

/-- R135 whole, with `absorb3` as R132 states it. -/
def Obligations.H3Put16AbsorbsUpperByteFirst : Prop :=
  (∀ (u : CodeUnit) (s : State), s.mode = .h3s →
      exec (.h3put16 u) s = .next ((s.absorb3 (u.extractLsb' 8 8)).absorb3 (u.extractLsb' 0 8)))
    ∧ (∀ (u : CodeUnit) (s t : State), s.mode = .h3s → s.tailcnt = 0#2 → exec (.h3put16 u) s = .next t →
        t.tailcnt = 2#2 ∧ t.h = s.h ∧ t.count = s.count + 2#32)
    ∧ (∀ (u : CodeUnit) (s t : State), s.mode = .h3s → s.tailcnt = 2#2 → exec (.h3put16 u) s = .next t →
        t.tailcnt = 0#2 ∧ t.tail = 0#24 ∧ t.count = s.count + 2#32
          ∧ t.h = mh3Block s.h
              (le32 (s.tail.extractLsb' 0 8) (s.tail.extractLsb' 8 8) (u.extractLsb' 8 8) (u.extractLsb' 0 8)))
    ∧ (∀ (u : CodeUnit) (s : State), s.mode = .idle → exec (.h3put16 u) s = .next (s.fail .noMessage))
    ∧ (∀ (u : CodeUnit) (s : State), s.mode = .h3a ∨ s.mode = .h2 →
        exec (.h3put16 u) s = .next (s.fail .shapeMismatch))
    ∧ ∀ (w : CommandWord) (s : State), w.extractLsb' 56 8 = 0x12#8 →
        takeCommand w s =
          if w.extractLsb' 32 24 = 0#24 ∧ w.extractLsb' 16 16 = 0#16 then exec (.h3put16 (w.extractLsb' 0 16)) s
          else .next (s.fail .reservedBits)

/-- R136 whole, with `absorb3` as R132 states it; the short form needs R36, as the rule says. -/
def Obligations.H3Put32MixesTheReversedWord : Prop :=
  (∀ (v : Word) (s : State), s.mode = .h3a →
      exec (.h3put32 v) s = .next ((((s.absorb3 (v.extractLsb' 24 8)).absorb3 (v.extractLsb' 16 8)).absorb3
        (v.extractLsb' 8 8)).absorb3 (v.extractLsb' 0 8)))
    ∧ (∀ (v : Word) (s : State), s.Inv → s.mode = .h3a →
        exec (.h3put32 v) s = .next { s with h := mh3Block s.h (bswap32 v), count := s.count + 4#32 })
    ∧ (∀ (v : Word) (s : State), s.mode = .idle → exec (.h3put32 v) s = .next (s.fail .noMessage))
    ∧ (∀ (v : Word) (s : State), s.mode = .h3s ∨ s.mode = .h2 →
        exec (.h3put32 v) s = .next (s.fail .shapeMismatch))
    ∧ ∀ (w : CommandWord) (s : State), w.extractLsb' 56 8 = 0x13#8 →
        takeCommand w s =
          if w.extractLsb' 32 24 = 0#24 then exec (.h3put32 (w.extractLsb' 0 32)) s else .next (s.fail .reservedBits)

/-- R137 whole; the second clause is its remark that the test of TAILCNT does not change the result. -/
def Obligations.H3FinalGivesTheResult : Prop :=
  (∀ s : State, s.mode = .h3s ∨ s.mode = .h3a →
      let h := fmix32 ((if s.tailcnt ≠ 0#2 then s.h ^^^ mh3MixK (s.tail.setWidth 32) else s.h) ^^^ s.count)
      exec .h3final s = .next { s with
        h := h, result := h, tail := 0#24, tailcnt := 0#2, mode := .idle, done := true })
    ∧ (∀ s : State, s.Inv → s.tailcnt = 0#2 → s.h ^^^ mh3MixK (s.tail.setWidth 32) = s.h)
    ∧ (∀ s : State, s.mode = .idle → exec .h3final s = .next (s.fail .noMessage))
    ∧ (∀ s : State, s.mode = .h2 → exec .h3final s = .next (s.fail .shapeMismatch))
    ∧ ∀ (w : CommandWord) (s : State), w.extractLsb' 56 8 = 0x14#8 →
        takeCommand w s = if w = 0x1400000000000000#64 then exec .h3final s else .next (s.fail .reservedBits)

/-- R161 whole, with `absorb2` as R159 states it. -/
def Obligations.H2PutAbsorbsTheLowByte : Prop :=
  (∀ (c : CodeUnit) (s : State), s.mode = .h2 → s.count ≠ s.declen →
      exec (.h2put c) s = .next (s.absorb2 (c.extractLsb' 0 8)))
    ∧ (∀ (c : CodeUnit) (s : State), s.mode = .h2 → s.count = s.declen →
        exec (.h2put c) s = .next (s.fail .lengthOverrun))
    ∧ (∀ (c : CodeUnit) (s : State), s.Inv → s.mode = .h2 → s.declen = 0#32 →
        exec (.h2put c) s = .next (s.fail .lengthOverrun))
    ∧ (∀ (c : CodeUnit) (s : State), s.mode = .idle → exec (.h2put c) s = .next (s.fail .noMessage))
    ∧ (∀ (c : CodeUnit) (s : State), s.mode = .h3s ∨ s.mode = .h3a →
        exec (.h2put c) s = .next (s.fail .shapeMismatch))
    ∧ ∀ (w : CommandWord) (s : State), w.extractLsb' 56 8 = 0x21#8 →
        takeCommand w s =
          if w.extractLsb' 32 24 = 0#24 ∧ w.extractLsb' 16 16 = 0#16 then exec (.h2put (w.extractLsb' 0 16)) s
          else .next (s.fail .reservedBits)

/-- R162 whole. -/
def Obligations.H2FinalGivesTheResult : Prop :=
  (∀ s : State, s.mode = .h2 → s.count = s.declen →
      let h := mh2Fmix (if s.tailcnt ≠ 0#2 then mul32 (s.h ^^^ s.tail.setWidth 32) 0x5bd1e995#32 else s.h)
      exec .h2final s = .next { s with
        h := h, result := h, tail := 0#24, tailcnt := 0#2, mode := .idle, done := true })
    ∧ (∀ s : State, s.mode = .h2 → s.count ≠ s.declen → exec .h2final s = .next (s.fail .lengthUnderrun))
    ∧ (∀ s : State, s.Inv → s.mode = .h2 → s.count ≠ s.declen → s.count.toNat < s.declen.toNat)
    ∧ (∀ s : State, s.Inv → s.mode = .h2 → (s.tailcnt = 0#2 ↔ s.count.toNat % 4 = 0))
    ∧ (∀ s : State,
        s.tail.setWidth 32 = le32 (s.tail.extractLsb' 0 8) (s.tail.extractLsb' 8 8) (s.tail.extractLsb' 16 8) 0#8)
    ∧ (∀ s : State, s.mode = .idle → exec .h2final s = .next (s.fail .noMessage))
    ∧ (∀ s : State, s.mode = .h3s ∨ s.mode = .h3a → exec .h2final s = .next (s.fail .shapeMismatch))
    ∧ ∀ (w : CommandWord) (s : State), w.extractLsb' 56 8 = 0x22#8 →
        takeCommand w s = if w = 0x2200000000000000#64 then exec .h2final s else .next (s.fail .reservedBits)

/-- R132 and R159 whole: absorbing a byte, for both families, in every state. -/
def Obligations.AbsorbFillsTheTailThenMixes : Prop :=
  ∀ (s : State) (b : Byte),
    (s.tailcnt.toNat < 3 →
        s.absorb3 b = { s with
          count := s.count + 1#32, tailcnt := s.tailcnt + 1#2, tail := (s.absorb3 b).tail }
        ∧ s.absorb2 b = { s with
          count := s.count + 1#32, tailcnt := s.tailcnt + 1#2, tail := (s.absorb3 b).tail }
        ∧ ∀ i, i < 24 → (s.absorb3 b).tail.getLsbD i =
            if 8 * s.tailcnt.toNat ≤ i ∧ i < 8 * s.tailcnt.toNat + 8 then b.getLsbD (i - 8 * s.tailcnt.toNat)
            else s.tail.getLsbD i)
      ∧ (s.tailcnt.toNat = 3 →
        let k := le32 (s.tail.extractLsb' 0 8) (s.tail.extractLsb' 8 8) (s.tail.extractLsb' 16 8) b
        s.absorb3 b = { s with count := s.count + 1#32, h := mh3Block s.h k, tail := 0#24, tailcnt := 0#2 }
        ∧ s.absorb2 b = { s with count := s.count + 1#32, h := mh2Block s.h k, tail := 0#24, tailcnt := 0#2 })

/-- The frame of the put commands (R135, R136, R161, R202): SEED, SEED_VALID, DECLEN and RESULT keep their values, and
so do MODE, DONE, ERR and CAUSE unless the command failed, in which case only the error action shows. -/
def Obligations.PutCommandsFrame : Prop :=
  ∀ (i : Instr) (s t : State), isPut i = true → exec i s = .next t →
    t.seed = s.seed ∧ t.seedValid = s.seedValid ∧ t.declen = s.declen ∧ t.result = s.result
      ∧ t.resetLine = s.resetLine ∧ t.inputs = s.inputs ∧ t.reads = s.reads
      ∧ (FailedTo s t ∨ (t.mode = s.mode ∧ t.done = s.done ∧ t.err = s.err ∧ t.cause = s.cause))

/-! ## Errors -/

/-- R202 whole: the error action, what it leaves alone, and that no later put or final command goes on with the
message. -/
def Obligations.FailKeepsFirstCauseAndCloses : Prop :=
  ∀ (s : State) (c : Cause), c ≠ .none →
    s.fail c = { s with cause := if s.err = false then c else s.cause, err := true, done := false, mode := .idle }
      ∧ ∀ i : Instr, isPut i = true ∨ isFinal i = true → exec i (s.fail c) = .next ((s.fail c).fail .noMessage)

/-- R201 with the priority of R64 and R204: a command word fails with the first cause whose condition holds and with
no other effect (R203); when none holds it is a command and completes, and raises no error. -/
def Obligations.CommandsFailWithTheFirstCause : Prop :=
  ∀ (w : CommandWord) (s : State),
    match firstCause w s with
    | some c => takeCommand w s = .next (s.fail c)
    | none => ∃ i t, decode w = .ok i ∧ exec i s = .next t ∧ takeCommand w s = .next t ∧ (t.err = true → s.err = true)

/-- R201's codes, and R22's. -/
def Obligations.CauseAndModeCodes : Prop :=
  [Cause.none, .illegalOpcode, .reservedBits, .seedMissing, .noMessage, .shapeMismatch, .lengthOverrun,
      .lengthUnderrun].map Cause.code = [0#3, 1#3, 2#3, 3#3, 4#3, 5#3, 6#3, 7#3]
    ∧ [Mode.idle, .h3s, .h3a, .h2].map Mode.code = [0#2, 1#2, 2#2, 3#2]

/-- R208: an error is cleared only by a successful init command or by reset, and each of them clears it. The list of
actions and the reset input's actions are the model's own (log entries 1 and 3). -/
def Obligations.OnlyInitOrResetClearsError : Prop :=
  (∀ s t : State, s.err = true → step s = .next t → t.err = false →
      (∃ rest, s.inputs = .assertReset :: rest)
        ∨ ∃ w i rest, s.inputs = .command w :: rest ∧ s.resetLine = false ∧ decode w = .ok i ∧ isInit i = true
            ∧ s.seedValid = true)
    ∧ (∀ (i : Instr) (s : State), isInit i = true → s.seedValid = true →
        ∃ t, exec i s = .next t ∧ t.err = false ∧ t.cause = .none)
    ∧ (∀ (i : Instr) (s : State), isInit i = true → s.seedValid = false → exec i s = .next (s.fail .seedMissing))
    ∧ (∀ (w : CommandWord) (s : State), w.extractLsb' 56 8 ∈ [0x10#8, 0x11#8, 0x20#8] → (∀ i, decode w ≠ .ok i) →
        takeCommand w s = .next (s.fail .reservedBits))
    ∧ ∀ (s : State) (rest : List HostAction), s.inputs = .assertReset :: rest →
        ∃ t, step s = .next t ∧ t.err = false ∧ t.cause = .none

/-- R207: a further error keeps CAUSE and changes nothing more; with ERR = 1, SETSEED and the init commands work as
without it, and no command's checks look at ERR or CAUSE. -/
def Obligations.ErrorsDoNotBlockTheEngine : Prop :=
  (∀ (s : State) (c d : Cause), c ≠ .none → d ≠ .none → (s.fail c).fail d = s.fail c)
    ∧ (∀ (s : State) (d : Cause), s.err = true → (s.fail d).cause = s.cause)
    ∧ (∀ (s : State) (a : Word), s.err = true → exec (.setseed a) s = .next { s with seed := a, seedValid := true })
    ∧ (∀ (i : Instr) (s : State), isInit i = true → s.err = true → s.seedValid = true →
        exec i s = exec i { s with err := false, cause := .none }
          ∧ ∃ t, exec i s = .next t ∧ t.mode ≠ .idle ∧ t.err = false ∧ t.cause = .none)
    ∧ ∀ (w : CommandWord) (s : State) (e : Bool) (c : Cause),
        firstCause w { s with err := e, cause := c } = firstCause w s

/-! ## The machine -/

/-- A step takes the host's oldest action: a command word executes as the command it decodes to, or fails with its
decode cause; with no action the engine waits (R47, R50, R64, R206). The model's own choices in it: the list of actions
as the form of the command port (log entry 1), a step with no action (log entry 2), and the clause on the reset input,
that releasing it is an action of its own and changes nothing else (log entry 3, beside R230). -/
def Obligations.StepRunsTheDecodedCommand : Prop :=
  (∀ (s : State) (w : CommandWord) (i : Instr) (rest : List HostAction),
      s.inputs = .command w :: rest → s.resetLine = false → decode w = .ok i →
        step s = exec i { s with inputs := rest })
    ∧ (∀ (s : State) (w : CommandWord) (rest : List HostAction),
        s.inputs = .command w :: rest → s.resetLine = false → decode w = .illegalOpcode →
          step s = .next (({ s with inputs := rest } : State).fail .illegalOpcode))
    ∧ (∀ (s : State) (w : CommandWord) (rest : List HostAction),
        s.inputs = .command w :: rest → s.resetLine = false → decode w = .reservedBits →
          step s = .next (({ s with inputs := rest } : State).fail .reservedBits))
    ∧ (∀ (s : State) (rest : List HostAction), s.inputs = .releaseReset :: rest →
        step s = .next { s with inputs := rest, resetLine := false })
    ∧ ∀ s : State, s.inputs = [] → step s = .next s

/-- R237 with R67: every step of every state completes; the machine never stops. What a step is, is the model's own: one
action of the host, or none (log entries 1 to 3 and 5). -/
def Obligations.EveryStepGoesOn : Prop :=
  ∀ s : State, ∃ t, step s = .next t

/-- R182: the value of each read-port address, in every state. -/
def Obligations.ReadPortShowsTheRegisters : Prop :=
  ∀ s : State, s.readPort 0#3 = s.status ∧ s.readPort 1#3 = s.result ∧ s.readPort 2#3 = s.seed
    ∧ s.readPort 3#3 = s.h ∧ s.readPort 4#3 = s.count ∧ s.readPort 5#3 = s.declen
    ∧ (s.readPort 6#3).extractLsb' 0 24 = s.tail ∧ (s.readPort 6#3).extractLsb' 24 8 = 0#8
    ∧ s.readPort 7#3 = 0x00000000#32

/-- R183 with R48: a read is answered for the state the last command left, changes no register and never fails. The
model's own choices in it: the list of actions (log entry 1), the record of the answers (log entry 4), and that a read
while the reset input is asserted is answered too (log entry 5). -/
def Obligations.ReadsChangeNoRegister : Prop :=
  ∀ (s : State) (ra : ReadAddr) (rest : List HostAction), s.inputs = .read ra :: rest →
    step s = .next { s with inputs := rest, reads := (ra, s.readPort ra) :: s.reads }

/-- R30: the fields of STATUS, and its reset value. -/
def Obligations.StatusShowsTheControlState : Prop :=
  ∀ s : State, s.status.extractLsb' 0 2 = s.mode.code ∧ s.status.getLsbD 2 = s.done ∧ s.status.getLsbD 3 = s.err
    ∧ s.status.extractLsb' 4 3 = s.cause.code ∧ s.status.getLsbD 7 = s.seedValid
    ∧ s.status.extractLsb' 8 2 = s.tailcnt ∧ s.status.extractLsb' 10 22 = 0#22
    ∧ State.reset.status = 0x00000000#32

/-- R20: only SETSEED and reset write SEED and SEED_VALID; an init without a seed fails. The steps are the model's own
(log entries 1 to 3 and 5). -/
def Obligations.OnlySetseedWritesTheSeed : Prop :=
  (∀ s t : State, step s = .next t →
      (t.seed = s.seed ∧ t.seedValid = s.seedValid)
        ∨ (∃ w a rest, s.inputs = .command w :: rest ∧ s.resetLine = false ∧ decode w = .ok (.setseed a)
            ∧ t.seed = a ∧ t.seedValid = true)
        ∨ ∃ rest, s.inputs = .assertReset :: rest ∧ t.seed = 0#32 ∧ t.seedValid = false)
    ∧ ∀ (i : Instr) (s : State), isInit i = true → s.seedValid = false → exec i s = .next (s.fail .seedMissing)

/-- R27: only a successful final command, and reset, write RESULT. The steps are the model's own (log entries 1 to 3
and 5). -/
def Obligations.OnlyFinalsWriteTheResult : Prop :=
  ∀ s t : State, step s = .next t →
    t.result = s.result
      ∨ (∃ w i rest, s.inputs = .command w :: rest ∧ s.resetLine = false ∧ decode w = .ok i ∧ isFinal i = true
          ∧ s.mode ≠ .idle ∧ t.done = true ∧ t.h = t.result)
      ∨ ∃ rest, s.inputs = .assertReset :: rest ∧ t.result = 0#32

/-- R24, R26: COUNT is written only by init and put commands, DECLEN only by init commands; reset clears both. The steps
are the model's own (log entries 1 to 3 and 5). -/
def Obligations.OnlyInitsAndPutsWriteTheLengths : Prop :=
  ∀ s t : State, step s = .next t →
    (t.count = s.count ∧ t.declen = s.declen)
      ∨ (∃ w i rest, s.inputs = .command w :: rest ∧ s.resetLine = false ∧ decode w = .ok i
          ∧ ((isInit i = true ∧ s.seedValid = true ∧ t.count = 0#32)
            ∨ (isPut i = true ∧ s.mode ≠ .idle ∧ t.declen = s.declen
              ∧ t.count = s.count + BitVec.ofNat 32 (match i with | .h2put _ => 1 | _ => (keyBytes i).length))))
      ∨ ∃ rest, s.inputs = .assertReset :: rest ∧ t.count = 0#32 ∧ t.declen = 0#32

/-- R36's invariants (as log entry 9 reads them), the message's seed invariant, the reset invariant (log entry 3) and the
refinement hold at reset. -/
def Obligations.ResetMeetsTheInvariants : Prop :=
  State.reset.Inv ∧ State.reset.SeedInv ∧ State.reset.HeldInReset ∧ State.reset.Refines Session.fresh

/-- R36, as log entry 9 reads its item 6 and with one derived clause: the invariants hold after every step from every
state in which they hold. The steps are the model's own (log entries 1 to 3 and 5). -/
def Obligations.StepsKeepTheInvariants : Prop :=
  ∀ s t : State, s.Inv → step s = .next t → t.Inv

/-- Derived invariants of an open message and of a result, kept by every step. The steps are the model's own (log
entries 1 to 3 and 5). -/
def Obligations.StepsKeepTheSeedInvariants : Prop :=
  ∀ s t : State, s.SeedInv → step s = .next t → t.SeedInv

/-- R16, R235: the engine refines the message machine, which keeps whole inputs and calls the pure functions. So RESULT
with DONE = 1 is the pure function of the last message, and every breach is its error. The actions, and what they do
while the reset input is asserted, are the model's own (log entries 1, 3 and 5). -/
def Obligations.StepsRefineTheMessageMachine : Prop :=
  ∀ (s t : State) (g : Session) (a : HostAction) (rest : List HostAction),
    s.Refines g → s.inputs = a :: rest → step s = .next t → t.Refines (g.action s.resetLine a)

/-- R138: streaming a MurmurHash3 message gives HASH3 of the concatenated encoder outputs; a SETSEED between the
commands does not change the message. -/
def Obligations.StreamingEqualsHash3 : Prop :=
  ∀ (s : State) (init : Instr) (m : Mode) (cmds : List Instr), s.seedValid = true →
    ((init = .h3initS ∧ m = .h3s ∧ ∀ i ∈ cmds, (∃ u, i = .h3put16 u) ∨ ∃ a, i = .setseed a)
      ∨ (init = .h3initA ∧ m = .h3a ∧ ∀ i ∈ cmds, (∃ v, i = .h3put32 v) ∨ ∃ a, i = .setseed a)) →
    let key := cmds.flatMap keyBytes
    ∃ t, execAll (init :: cmds) s = .next t ∧ t.mode = m ∧ t.Absorbed mh3Block s.seed key
      ∧ ∃ u, exec .h3final t = .next u ∧ u.result = hash3 key s.seed ∧ u.done = true

/-- R163: a successful MurmurHash2 message gives hash2 of its characters. -/
def Obligations.StreamingEqualsHash2 : Prop :=
  ∀ (s : State) (text : List CodeUnit), s.seedValid = true → text.length < 2 ^ 32 →
    ∃ t, execAll (.h2init (lengthOperand text.length) :: (text.map Instr.h2put ++ [.h2final])) s = .next t
      ∧ t.result = hash2 text s.seed ∧ t.done = true ∧ t.mode = .idle

/-- R184: the program of hash3ForString, from any state; the SETSEED may be left out where SEED holds the seed. The list
of actions and the record of answers are the model's own (log entries 1 and 4). -/
def Obligations.Hash3ForStringProgramGivesTheHash : Prop :=
  ∀ (text : List CodeUnit) (seed : Nat) (s : State), s.resetLine = false →
    ProgramGives (hash3ForStringProgram text seed) (hash3ForString text seed) s
      ∧ (s.seedValid = true → s.seed = seedOperand seed →
          ProgramGives (hash3ForStringProgram text seed).tail (hash3ForString text seed) s)

/-- R185: the program of hash3ForInt32Array, from any state (log entries 1 and 4 as above). -/
def Obligations.Hash3ForInt32ArrayProgramGivesTheHash : Prop :=
  ∀ (values : List Word) (seed : Nat) (s : State), s.resetLine = false →
    ProgramGives (hash3ForInt32ArrayProgram values seed) (hash3ForInt32Array values seed) s
      ∧ (s.seedValid = true → s.seed = seedOperand seed →
          ProgramGives (hash3ForInt32ArrayProgram values seed).tail (hash3ForInt32Array values seed) s)

/-- R186 for texts whose length fits the operand of H2INIT. For a longer text the rule's claim cannot hold beside R160
and R161; what the commands do there is `LongMurmurHash2TextOverruns` (log entry 7). Log entries 1 and 4 as above. -/
def Obligations.Hash2ProgramGivesTheHash : Prop :=
  ∀ (text : List CodeUnit) (seed : Nat) (s : State), s.resetLine = false → text.length < 2 ^ 32 →
    ProgramGives (hash2Program text seed) (hash2 text (seedOperand seed)) s
      ∧ (s.seedValid = true → s.seed = seedOperand seed →
          ProgramGives (hash2Program text seed).tail (hash2 text (seedOperand seed)) s)

/-- The model's reading of R160 to R162 for a text of 2^32 characters or more (log entry 7): the declared length is
the length modulo 2^32, so a put past it fails and the message gives no result. -/
def Obligations.LongMurmurHash2TextOverruns : Prop :=
  ∀ (text : List CodeUnit) (s : State), s.seedValid = true → 2 ^ 32 ≤ text.length →
    ∃ t, execAll (.h2init (lengthOperand text.length) :: (text.map Instr.h2put ++ [.h2final])) s = .next t
      ∧ t.err = true ∧ t.cause = .lengthOverrun ∧ t.done = false ∧ t.result = s.result

/-- R17: after an init, STATUS and a done RESULT depend only on the seed at that init and the commands since. -/
def Obligations.ResultForgetsEarlierMessages : Prop :=
  ∀ (s₁ s₂ t₁ t₂ : State) (init : Instr) (cmds : List Instr), isInit init = true →
    s₁.seedValid = true → s₂.seedValid = true → s₁.seed = s₂.seed →
    execAll (init :: cmds) s₁ = .next t₁ → execAll (init :: cmds) s₂ = .next t₂ →
      t₁.status = t₂.status ∧ t₁.h = t₂.h ∧ (t₁.done = true → t₁.result = t₂.result)

/-! ## Arithmetic, the encoder and the mixers -/

/-- R80, R81, R84 to R86 in exact arithmetic and bit by bit: wraparound sum and product, the two shifts, and the
little-endian word with byte 0 lowest. -/
def Obligations.PrimitivesByBitsAndNumbers : Prop :=
  (∀ a b : Word, (add32 a b).toNat = (a.toNat + b.toNat) % 2 ^ 32 ∧ (mul32 a b).toNat = a.toNat * b.toNat % 2 ^ 32)
    ∧ (∀ (x : Word) (n i : Nat), i < 32 →
        (shr32 x n).getLsbD i = (decide (n + i < 32) && x.getLsbD (n + i))
          ∧ (shl32 x n).getLsbD i = (decide (n ≤ i) && x.getLsbD (i - n)))
    ∧ ∀ b0 b1 b2 b3 : Byte,
        (le32 b0 b1 b2 b3).toNat = b0.toNat + b1.toNat * 2 ^ 8 + b2.toNat * 2 ^ 16 + b3.toNat * 2 ^ 24

/-- R82: the 16-bit split form of the product. -/
def Obligations.MultiplyEqualsItsSplitForm : Prop :=
  ∀ a b : Word, mul32 a b =
    BitVec.ofNat 32
      ((a.extractLsb' 0 16).toNat * b.toNat + ((a.extractLsb' 16 16).toNat * b.toNat % 2 ^ 16) * 2 ^ 16)

/-- R83: bit i of the rotation is bit (i - r) mod 32 of the operand; an amount of 32 is read as 0. -/
def Obligations.RotationMovesEachBit : Prop :=
  (∀ (x : Word) (r i : Nat), r < 32 → i < 32 → (rotl32 x r).getLsbD i = x.getLsbD ((i + 32 - r) % 32))
    ∧ ∀ (x : Word) (r : Nat), 0 < r → r < 32 → rotl32 x r = (x <<< r) ||| (x >>> (32 - r))
      ∧ rotl32 x 0 = x ∧ rotl32 x 32 = x

/-- R87, laws 1 to 9. -/
def Obligations.ArithmeticLaws : Prop :=
  (∀ a b c : Word, add32 a b = add32 b a ∧ add32 (add32 a b) c = add32 a (add32 b c)
      ∧ mul32 a b = mul32 b a ∧ mul32 (mul32 a b) c = mul32 a (mul32 b c))
    ∧ (∀ a b c : Word, mul32 a (add32 b c) = add32 (mul32 a b) (mul32 a c))
    ∧ (∀ a : Word, mul32 a 1#32 = a ∧ mul32 a 0#32 = 0#32)
    ∧ (∀ (x : Word) (r q : Nat), rotl32 (rotl32 x r) q = rotl32 x ((r + q) % 32))
    ∧ (∀ (x y : Word) (r : Nat), rotl32 (x ^^^ y) r = rotl32 x r ^^^ rotl32 y r)
    ∧ (∀ x y z : Word, (x ^^^ y) ^^^ z = x ^^^ (y ^^^ z) ∧ x ^^^ y = y ^^^ x ∧ x ^^^ 0#32 = x ∧ x ^^^ x = 0#32)
    ∧ (∀ c ∈ [mh3C1, mh3C2, mh3M5, mh3F1, mh3F2, mh2M], c.toNat % 2 = 1 ∧ Function.Bijective fun x : Word => mul32 x c)
    ∧ [mh3C1, mh3C2, mh3M5, mh3F1, mh3F2, mh2M]
        = [0xcc9e2d51#32, 0x1b873593#32, 5#32, 0x85ebca6b#32, 0xc2b2ae35#32, 0x5bd1e995#32]
    ∧ (∀ n, 0 < n → n < 32 → Function.Bijective fun x : Word => x ^^^ shr32 x n)
    ∧ Function.Bijective mh3MixK ∧ Function.Bijective fmix32 ∧ ∀ k, Function.Bijective fun h => mh3Block h k

/-- R107: the block words each input shape gives, in order, and the leftover of each shape, for any block function. -/
def Obligations.EncoderBlockWords : Prop :=
  ∀ (block : Word → Word → Word) (h : Word),
    (∀ values : List Word,
        blockFold block h (encInt32s values) = (values.foldl (fun h v => block h (bswap32 v)) h, []))
      ∧ (∀ (a b : CodeUnit) (rest : List CodeUnit),
        blockFold block h (encString (a :: b :: rest))
          = blockFold block (block h ((bswap16 a).setWidth 32 ||| ((bswap16 b).setWidth 32 <<< 16))) (encString rest))
      ∧ (∀ c : CodeUnit, blockFold block h (encString [c]) = (h, enc16 c))
      ∧ blockFold block h (encString []) = (h, [])

/-- R106 and R102: the encoder loses nothing. -/
def Obligations.EncoderIsInjective : Prop :=
  Function.Injective encString ∧ Function.Injective encInt32s

/-- R131, R124, R155: the tail handlers by residue. -/
def Obligations.TailHandlersByResidue : Prop :=
  ∀ (h : Word) (a b c : Byte),
    mh3Tail h [] = h
      ∧ mh3Tail h [a] = h ^^^ mh3MixK (a.setWidth 32)
      ∧ mh3Tail h [a, b] = h ^^^ mh3MixK (a.setWidth 32 ||| (b.setWidth 32 <<< 8))
      ∧ mh3Tail h [a, b, c] = h ^^^ mh3MixK (a.setWidth 32 ||| (b.setWidth 32 <<< 8) ||| (c.setWidth 32 <<< 16))
      ∧ (∀ t : List Byte, mh3Tail h t = h ^^^ mh3MixK (mh3TailWord t))
      ∧ mh2Tail h [] = h
      ∧ mh2Tail h [a] = mul32 (h ^^^ le32 a 0#8 0#8 0#8) 0x5bd1e995#32
      ∧ mh2Tail h [a, b] = mul32 (h ^^^ le32 a b 0#8 0#8) 0x5bd1e995#32
      ∧ mh2Tail h [a, b, c] = mul32 (h ^^^ le32 a b c 0#8) 0x5bd1e995#32

/-- R128: HASH3 by block index, as the rule writes it. -/
def Obligations.Hash3ByBlockIndex : Prop :=
  ∀ (key : List Byte) (seed : Word),
    let nb := key.length / 4
    let byte := fun i => key.getD i 0#8
    let h := (List.range nb).foldl
      (fun h i => mh3Block h (le32 (byte (4 * i)) (byte (4 * i + 1)) (byte (4 * i + 2)) (byte (4 * i + 3)))) seed
    hash3 key seed = fmix32 (mh3Tail h (key.drop (4 * nb)) ^^^ BitVec.ofNat 32 key.length)

/-- R157: hash2 by block index, as the rule writes it. -/
def Obligations.Hash2ByBlockIndex : Prop :=
  ∀ (text : List CodeUnit) (seed : Word),
    let nb := text.length / 4
    let cb := fun i => (text.getD i 0#16).extractLsb' 0 8
    let h := (List.range nb).foldl
      (fun h i => mh2Block h (le32 (cb (4 * i)) (cb (4 * i + 1)) (cb (4 * i + 2)) (cb (4 * i + 3))))
      (seed ^^^ BitVec.ofNat 32 text.length)
    hash2 text seed = mh2Fmix (mh2Tail h ((text.drop (4 * nb)).map fun c => c.extractLsb' 0 8))

/-- R139: the residues the two MurmurHash3 shapes reach. -/
def Obligations.ReachableResidues : Prop :=
  (∀ text : List CodeUnit, (encString text).length = 2 * text.length
      ∧ (encString text).length % 4 = if text.length % 2 = 0 then 0 else 2)
    ∧ (∀ values : List Word, (encInt32s values).length = 4 * values.length ∧ (encInt32s values).length % 4 = 0)
    ∧ ∀ (i : Instr) (s t : State), s.Inv → exec i s = .next t → t.mode = .h3s ∨ t.mode = .h3a →
        t.tailcnt ≠ 1#2 ∧ t.tailcnt ≠ 3#2

/-- R158: only the low byte of a code unit counts in MurmurHash2, in the pure function and in H2PUT. -/
def Obligations.MurmurHash2SeesLowBytesOnly : Prop :=
  (∀ (text text' : List CodeUnit) (seed : Word),
      text.map (fun c => c.extractLsb' 0 8) = text'.map (fun c => c.extractLsb' 0 8) →
        hash2 text seed = hash2 text' seed)
    ∧ ∀ (c c' : CodeUnit) (s : State), c.extractLsb' 0 8 = c'.extractLsb' 0 8 →
        exec (.h2put c) s = exec (.h2put c') s
end

