-- ==== Sys2Proof/Laws/Arith.lean ====
section
/-! SUPPORT. Bits of the rotation and of the block word, and why each mixing step loses nothing (spec/40_arith.md
R83, R86, R87). -/

namespace Sys2Proof.Machine

/-- Bit i of the rotation, by whether it was rotated around. -/
theorem getLsbD_rotl32 (x : Word) (r i : Nat) (hr : r < 32) (hi : i < 32) :
    (rotl32 x r).getLsbD i = if i < r then x.getLsbD (32 - r + i) else x.getLsbD (i - r) := by
  simp only [rotl32, Nat.mod_eq_of_lt hr, BitVec.getLsbD_or, BitVec.getLsbD_shiftLeft, BitVec.getLsbD_ushiftRight]
  by_cases h : i < r
  · simp [h]
  · simp [h, hi, BitVec.getLsbD_of_ge x (32 - r + i) (by omega)]

/-- Rotation amounts count modulo 32 (log entry 12). -/
theorem rotl32_mod (x : Word) (r : Nat) : rotl32 x r = rotl32 x (r % 32) := by simp [rotl32]

/-- Xor with a right shift of itself can be undone, from the top bit down. -/
theorem xor_shr32_injective (n : Nat) (hn : 0 < n) : Function.Injective fun x : Word => x ^^^ shr32 x n := by
  intro x y hxy
  apply BitVec.eq_of_getLsbD_eq
  have step : ∀ i, x.getLsbD (n + i) = y.getLsbD (n + i) → x.getLsbD i = y.getLsbD i := by
    intro i h
    have hb := congrArg (·.getLsbD i) hxy
    simp only [shr32, BitVec.getLsbD_xor, BitVec.getLsbD_ushiftRight, h] at hb
    simpa using hb
  have all : ∀ k i, 32 - i ≤ k → x.getLsbD i = y.getLsbD i := by
    intro k
    induction k with
    | zero => intro i hi; rw [BitVec.getLsbD_of_ge x i (by omega), BitVec.getLsbD_of_ge y i (by omega)]
    | succ k ih => intro i hi; exact step i (ih (n + i) (by omega))
  intro i _
  exact all 32 i (by omega)

/-- Multiplying by a constant that has an inverse modulo 2^32 can be undone. -/
theorem mul32_injective {c d : Word} (h : mul32 c d = 1#32) : Function.Injective fun x : Word => mul32 x c := by
  intro x y hxy
  have : mul32 (mul32 x c) d = mul32 (mul32 y c) d := congrArg (fun z => mul32 z d) hxy
  simpa [mul32, BitVec.mul_assoc, show c * d = 1#32 from h] using this

/-- The inverses of the mixing constants modulo 2^32. -/
theorem mixing_constants_have_inverses :
    mul32 mh3C1 0xdee13bb1#32 = 1#32 ∧ mul32 mh3C2 0x56ed309b#32 = 1#32 ∧ mul32 mh3M5 0xcccccccd#32 = 1#32
      ∧ mul32 mh3F1 0xa5cb9243#32 = 1#32 ∧ mul32 mh3F2 0x7ed1b41d#32 = 1#32 ∧ mul32 mh2M 0xe59b19bd#32 = 1#32 := by
  decide

/-- A rotation can be undone. -/
theorem rotl32_injective (r : Nat) (hr : r < 32) : Function.Injective fun x : Word => rotl32 x r := by
  intro x y hxy
  apply BitVec.eq_of_getLsbD_eq
  intro i hi
  by_cases h : i + r < 32
  · have hb := congrArg (·.getLsbD (i + r)) hxy
    simpa [getLsbD_rotl32 _ _ _ hr h] using hb
  · have hb := congrArg (·.getLsbD (i + r - 32)) hxy
    simp only [getLsbD_rotl32 _ _ _ hr (show i + r - 32 < 32 by omega)] at hb
    simpa [show i + r - 32 < r by omega, show 32 - r + (i + r - 32) = i by omega] using hb

/-- The partial products of the multiplication's 16-bit split (R82). -/
theorem mul_split (a b : Nat) :
    a * b % 2 ^ 32 = (a % 2 ^ 16 * b + a / 2 ^ 16 * b % 2 ^ 16 * 2 ^ 16) % 2 ^ 32 := by
  have h : a * b = a % 2 ^ 16 * b + a / 2 ^ 16 * b * 2 ^ 16 := by
    conv => lhs; rw [← Nat.mod_add_div a (2 ^ 16)]
    ring
  rw [h]
  omega

/-- The little-endian word is its bytes joined, byte 3 in the highest place (R86). -/
theorem le32_append (b0 b1 b2 b3 : Byte) : le32 b0 b1 b2 b3 = b3 ++ b2 ++ b1 ++ b0 := by
  apply BitVec.eq_of_getLsbD_eq
  intro i hi
  simp only [le32, shl32, zextByte, BitVec.getLsbD_or, BitVec.getLsbD_setWidth, BitVec.getLsbD_shiftLeft,
    BitVec.getLsbD_append, hi]
  obtain h | h | h | h : i < 8 ∨ (8 ≤ i ∧ i < 16) ∨ (16 ≤ i ∧ i < 24) ∨ 24 ≤ i := by omega
  · simp [h, show i < 16 by omega, show i < 24 by omega]
  · simp [show ¬ i < 8 by omega, show i < 24 by omega, h, show i - 8 < 32 by omega,
      show i - 8 < 8 by omega]
  · simp [show ¬ i < 8 by omega, show ¬ i < 16 by omega, h, BitVec.getLsbD_of_ge b0 i (by omega),
      BitVec.getLsbD_of_ge b1 (i - 8) (by omega), Nat.sub_sub, show ¬ i - 8 < 8 by omega, show i - 16 < 8 by omega,
      show i - 16 < 32 by omega]
  · simp [show ¬ i < 8 by omega, show ¬ i < 16 by omega, show ¬ i < 24 by omega, BitVec.getLsbD_of_ge b0 i (by omega),
      BitVec.getLsbD_of_ge b1 (i - 8) (by omega), BitVec.getLsbD_of_ge b2 (i - 16) (by omega), Nat.sub_sub,
      show ¬ i - 8 < 8 by omega, show ¬ i - 16 < 8 by omega, show i - 24 < 32 by omega]

end Sys2Proof.Machine
end

