-- ==== Sys2Proof/Laws/Decode.lean ====
section
/-! SUPPORT. The fields of an encoded command, and what the decoder's opcode map reads. -/

namespace Sys2Proof

/-- The OP field of a word built as `(OP << 56) | A`. -/
theorem opField_of_parts (c : BitVec 8) (a : Word) :
    opField ((c.setWidth 64 <<< 56) ||| a.setWidth 64) = c := by
  apply BitVec.eq_of_getLsbD_eq
  intro i hi
  simp [opField, hi, show 56 + i < 64 by omega, BitVec.getLsbD_of_ge a (56 + i) (by omega)]

/-- Its RSV field is 0. -/
theorem rsvField_of_parts (c : BitVec 8) (a : Word) :
    rsvField ((c.setWidth 64 <<< 56) ||| a.setWidth 64) = 0#24 := by
  apply BitVec.eq_of_getLsbD_eq
  intro i hi
  simp [rsvField, hi, show 32 + i < 56 by omega]

/-- Its A field is A. -/
theorem aField_of_parts (c : BitVec 8) (a : Word) :
    aField ((c.setWidth 64 <<< 56) ||| a.setWidth 64) = a := by
  apply BitVec.eq_of_getLsbD_eq
  intro i hi
  simp [aField, hi, show i < 56 by omega, show i < 64 by omega]

/-- A word is its three fields (R60). -/
theorem word_eq_of_fields {w v : CommandWord} (ho : opField w = opField v) (hr : rsvField w = rsvField v)
    (ha : aField w = aField v) : w = v := by
  apply BitVec.eq_of_getLsbD_eq
  intro i hi
  obtain h | h | h : i < 32 ∨ (32 ≤ i ∧ i < 56) ∨ 56 ≤ i := by omega
  · have := congrArg (·.getLsbD i) ha
    simpa [aField, BitVec.getLsbD_extractLsb', h] using this
  · have := congrArg (·.getLsbD (i - 32)) hr
    simpa [rsvField, BitVec.getLsbD_extractLsb', show i - 32 < 24 by omega, show 32 + (i - 32) = i by omega] using this
  · have := congrArg (·.getLsbD (i - 56)) ho
    simpa [opField, BitVec.getLsbD_extractLsb', show i - 56 < 8 by omega, show 56 + (i - 56) = i by omega] using this

theorem opField_encode (i : Instr) : opField (encode i) = i.opcode.code := opField_of_parts _ _
theorem rsvField_encode (i : Instr) : rsvField (encode i) = 0#24 := rsvField_of_parts _ _
theorem aField_encode (i : Instr) : aField (encode i) = i.operand := aField_of_parts _ _

/-- The opcode map and the opcodes' values are each other's inverse. -/
theorem opcodeOf?_code (k : Opcode) : opcodeOf? k.code = some k := by cases k <;> rfl

theorem code_of_opcodeOf? {op : BitVec 8} {k : Opcode} (h : opcodeOf? op = some k) : k.code = op := by
  unfold opcodeOf? at h
  repeat' split at h
  all_goals first | (cases h; simp_all [Opcode.code]) | cases h

/-- The high half of a class U operand is zero. -/
theorem class_u_high (c : CodeUnit) : (c.setWidth 32).extractLsb' 16 16 = 0#16 := by
  apply BitVec.eq_of_getLsbD_eq
  intro i hi
  simp [BitVec.getLsbD_extractLsb']

/-- A class U operand is read back from A. -/
theorem unitOperand_setWidth (c : CodeUnit) : unitOperand (c.setWidth 32) = c := by
  apply BitVec.eq_of_getLsbD_eq
  intro i hi
  simp [unitOperand, hi, show i < 32 by omega]

/-- An A whose high half is zero is its class U operand. -/
theorem setWidth_unitOperand {a : Word} (h : a.extractLsb' 16 16 = 0#16) : (unitOperand a).setWidth 32 = a := by
  apply BitVec.eq_of_getLsbD_eq
  intro i hi
  by_cases hl : i < 16
  · simp [unitOperand, hl, hi]
  · have := congrArg (·.getLsbD (i - 16)) h
    simp only [BitVec.getLsbD_extractLsb', show i - 16 < 16 by omega, show 16 + (i - 16) = i by omega] at this
    simp [unitOperand, BitVec.getLsbD_extractLsb', hl]
    simpa using this

/-- An accepted operand is the operand of the command it makes (R61, R62). -/
theorem operand_withOperand {k : Opcode} {a : Word} (h : k.operandClass.accepts a = true) :
    (k.withOperand a).operand = a := by
  cases k <;> simp [Opcode.operandClass, OperandClass.accepts] at h
  case h3put16 => exact setWidth_unitOperand h
  case h2put => exact setWidth_unitOperand h
  all_goals simp [Opcode.withOperand, Instr.operand, h]

theorem opcode_withOperand (k : Opcode) (a : Word) : (k.withOperand a).opcode = k := by cases k <;> rfl

/-- What an accepted word is made of: an assigned opcode, a zero RSV and an operand its class accepts. -/
theorem decode_ok_iff {w : CommandWord} {i : Instr} :
    decode w = .ok i ↔
      ∃ k, opcodeOf? (opField w) = some k ∧ rsvField w = 0#24 ∧ k.operandClass.accepts (aField w) = true
        ∧ i = k.withOperand (aField w) := by
  unfold decode
  constructor
  · intro hd
    split at hd
    · cases hd
    · next k hk =>
      split at hd
      · cases hd
      · next hr =>
        split at hd
        · next ha => exact ⟨k, hk, Decidable.not_not.mp hr, ha, (Decoded.ok.inj hd).symm⟩
        · cases hd
  · rintro ⟨k, hk, hr, ha, rfl⟩
    simp only [hk, hr, ha]
    rfl

end Sys2Proof
end

