-- ==== Sys2Proof/Laws/State.lean ====
section
/-! SUPPORT. One lemma per field per update of State, so that no later proof unfolds a record update. -/

namespace Sys2Proof.Machine

variable (s : State)

/-! The error action, field by field (R202). -/

@[simp] theorem State.fail_seed (c : Cause) : (s.fail c).seed = s.seed := rfl
@[simp] theorem State.fail_seedValid (c : Cause) : (s.fail c).seedValid = s.seedValid := rfl
@[simp] theorem State.fail_mode (c : Cause) : (s.fail c).mode = .idle := rfl
@[simp] theorem State.fail_h (c : Cause) : (s.fail c).h = s.h := rfl
@[simp] theorem State.fail_count (c : Cause) : (s.fail c).count = s.count := rfl
@[simp] theorem State.fail_tail (c : Cause) : (s.fail c).tail = s.tail := rfl
@[simp] theorem State.fail_tailcnt (c : Cause) : (s.fail c).tailcnt = s.tailcnt := rfl
@[simp] theorem State.fail_declen (c : Cause) : (s.fail c).declen = s.declen := rfl
@[simp] theorem State.fail_result (c : Cause) : (s.fail c).result = s.result := rfl
@[simp] theorem State.fail_done (c : Cause) : (s.fail c).done = false := rfl
@[simp] theorem State.fail_err (c : Cause) : (s.fail c).err = true := rfl
@[simp] theorem State.fail_cause (c : Cause) : (s.fail c).cause = if s.err then s.cause else c := rfl
@[simp] theorem State.fail_resetLine (c : Cause) : (s.fail c).resetLine = s.resetLine := rfl
@[simp] theorem State.fail_inputs (c : Cause) : (s.fail c).inputs = s.inputs := rfl
@[simp] theorem State.fail_reads (c : Cause) : (s.fail c).reads = s.reads := rfl

/-! Clearing an error, field by field (R208). -/

@[simp] theorem State.clearError_seed : (s.clearError).seed = s.seed := rfl
@[simp] theorem State.clearError_seedValid : (s.clearError).seedValid = s.seedValid := rfl
@[simp] theorem State.clearError_mode : (s.clearError).mode = s.mode := rfl
@[simp] theorem State.clearError_h : (s.clearError).h = s.h := rfl
@[simp] theorem State.clearError_count : (s.clearError).count = s.count := rfl
@[simp] theorem State.clearError_tail : (s.clearError).tail = s.tail := rfl
@[simp] theorem State.clearError_tailcnt : (s.clearError).tailcnt = s.tailcnt := rfl
@[simp] theorem State.clearError_declen : (s.clearError).declen = s.declen := rfl
@[simp] theorem State.clearError_result : (s.clearError).result = s.result := rfl
@[simp] theorem State.clearError_done : (s.clearError).done = s.done := rfl
@[simp] theorem State.clearError_err : (s.clearError).err = false := rfl
@[simp] theorem State.clearError_cause : (s.clearError).cause = .none := rfl
@[simp] theorem State.clearError_resetLine : (s.clearError).resetLine = s.resetLine := rfl
@[simp] theorem State.clearError_inputs : (s.clearError).inputs = s.inputs := rfl
@[simp] theorem State.clearError_reads : (s.clearError).reads = s.reads := rfl

/-! Opening a message, field by field (R133, R134, R160). -/

@[simp] theorem State.openMessage_seed (m : Mode) (h0 n : Word) : (s.openMessage m h0 n).seed = s.seed := rfl
@[simp] theorem State.openMessage_seedValid (m : Mode) (h0 n : Word) : (s.openMessage m h0 n).seedValid = s.seedValid := rfl
@[simp] theorem State.openMessage_mode (m : Mode) (h0 n : Word) : (s.openMessage m h0 n).mode = m := rfl
@[simp] theorem State.openMessage_h (m : Mode) (h0 n : Word) : (s.openMessage m h0 n).h = h0 := rfl
@[simp] theorem State.openMessage_count (m : Mode) (h0 n : Word) : (s.openMessage m h0 n).count = 0#32 := rfl
@[simp] theorem State.openMessage_tail (m : Mode) (h0 n : Word) : (s.openMessage m h0 n).tail = 0#24 := rfl
@[simp] theorem State.openMessage_tailcnt (m : Mode) (h0 n : Word) : (s.openMessage m h0 n).tailcnt = 0#2 := rfl
@[simp] theorem State.openMessage_declen (m : Mode) (h0 n : Word) : (s.openMessage m h0 n).declen = n := rfl
@[simp] theorem State.openMessage_result (m : Mode) (h0 n : Word) : (s.openMessage m h0 n).result = s.result := rfl
@[simp] theorem State.openMessage_done (m : Mode) (h0 n : Word) : (s.openMessage m h0 n).done = false := rfl
@[simp] theorem State.openMessage_err (m : Mode) (h0 n : Word) : (s.openMessage m h0 n).err = false := rfl
@[simp] theorem State.openMessage_cause (m : Mode) (h0 n : Word) : (s.openMessage m h0 n).cause = .none := rfl
@[simp] theorem State.openMessage_resetLine (m : Mode) (h0 n : Word) : (s.openMessage m h0 n).resetLine = s.resetLine := rfl
@[simp] theorem State.openMessage_inputs (m : Mode) (h0 n : Word) : (s.openMessage m h0 n).inputs = s.inputs := rfl
@[simp] theorem State.openMessage_reads (m : Mode) (h0 n : Word) : (s.openMessage m h0 n).reads = s.reads := rfl

/-! Closing a message, field by field (R137, R162). -/

@[simp] theorem State.closeWith_seed (x : Word) : (s.closeWith x).seed = s.seed := rfl
@[simp] theorem State.closeWith_seedValid (x : Word) : (s.closeWith x).seedValid = s.seedValid := rfl
@[simp] theorem State.closeWith_mode (x : Word) : (s.closeWith x).mode = .idle := rfl
@[simp] theorem State.closeWith_h (x : Word) : (s.closeWith x).h = x := rfl
@[simp] theorem State.closeWith_count (x : Word) : (s.closeWith x).count = s.count := rfl
@[simp] theorem State.closeWith_tail (x : Word) : (s.closeWith x).tail = 0#24 := rfl
@[simp] theorem State.closeWith_tailcnt (x : Word) : (s.closeWith x).tailcnt = 0#2 := rfl
@[simp] theorem State.closeWith_declen (x : Word) : (s.closeWith x).declen = s.declen := rfl
@[simp] theorem State.closeWith_result (x : Word) : (s.closeWith x).result = x := rfl
@[simp] theorem State.closeWith_done (x : Word) : (s.closeWith x).done = true := rfl
@[simp] theorem State.closeWith_err (x : Word) : (s.closeWith x).err = s.err := rfl
@[simp] theorem State.closeWith_cause (x : Word) : (s.closeWith x).cause = s.cause := rfl
@[simp] theorem State.closeWith_resetLine (x : Word) : (s.closeWith x).resetLine = s.resetLine := rfl
@[simp] theorem State.closeWith_inputs (x : Word) : (s.closeWith x).inputs = s.inputs := rfl
@[simp] theorem State.closeWith_reads (x : Word) : (s.closeWith x).reads = s.reads := rfl

/-! Asserting reset, field by field (R35, R230). -/

@[simp] theorem State.assertReset_seed : (s.assertReset).seed = 0#32 := rfl
@[simp] theorem State.assertReset_seedValid : (s.assertReset).seedValid = false := rfl
@[simp] theorem State.assertReset_mode : (s.assertReset).mode = .idle := rfl
@[simp] theorem State.assertReset_h : (s.assertReset).h = 0#32 := rfl
@[simp] theorem State.assertReset_count : (s.assertReset).count = 0#32 := rfl
@[simp] theorem State.assertReset_tail : (s.assertReset).tail = 0#24 := rfl
@[simp] theorem State.assertReset_tailcnt : (s.assertReset).tailcnt = 0#2 := rfl
@[simp] theorem State.assertReset_declen : (s.assertReset).declen = 0#32 := rfl
@[simp] theorem State.assertReset_result : (s.assertReset).result = 0#32 := rfl
@[simp] theorem State.assertReset_done : (s.assertReset).done = false := rfl
@[simp] theorem State.assertReset_err : (s.assertReset).err = false := rfl
@[simp] theorem State.assertReset_cause : (s.assertReset).cause = .none := rfl
@[simp] theorem State.assertReset_resetLine : (s.assertReset).resetLine = true := rfl
@[simp] theorem State.assertReset_inputs : (s.assertReset).inputs = s.inputs := rfl
@[simp] theorem State.assertReset_reads : (s.assertReset).reads = s.reads := rfl

/-! Releasing reset, field by field. -/

@[simp] theorem State.releaseReset_seed : (s.releaseReset).seed = s.seed := rfl
@[simp] theorem State.releaseReset_seedValid : (s.releaseReset).seedValid = s.seedValid := rfl
@[simp] theorem State.releaseReset_mode : (s.releaseReset).mode = s.mode := rfl
@[simp] theorem State.releaseReset_h : (s.releaseReset).h = s.h := rfl
@[simp] theorem State.releaseReset_count : (s.releaseReset).count = s.count := rfl
@[simp] theorem State.releaseReset_tail : (s.releaseReset).tail = s.tail := rfl
@[simp] theorem State.releaseReset_tailcnt : (s.releaseReset).tailcnt = s.tailcnt := rfl
@[simp] theorem State.releaseReset_declen : (s.releaseReset).declen = s.declen := rfl
@[simp] theorem State.releaseReset_result : (s.releaseReset).result = s.result := rfl
@[simp] theorem State.releaseReset_done : (s.releaseReset).done = s.done := rfl
@[simp] theorem State.releaseReset_err : (s.releaseReset).err = s.err := rfl
@[simp] theorem State.releaseReset_cause : (s.releaseReset).cause = s.cause := rfl
@[simp] theorem State.releaseReset_resetLine : (s.releaseReset).resetLine = false := rfl
@[simp] theorem State.releaseReset_inputs : (s.releaseReset).inputs = s.inputs := rfl
@[simp] theorem State.releaseReset_reads : (s.releaseReset).reads = s.reads := rfl

/-! Answering a read, field by field (R183). -/

@[simp] theorem State.answerRead_seed (ra : ReadAddr) : (s.answerRead ra).seed = s.seed := rfl
@[simp] theorem State.answerRead_seedValid (ra : ReadAddr) : (s.answerRead ra).seedValid = s.seedValid := rfl
@[simp] theorem State.answerRead_mode (ra : ReadAddr) : (s.answerRead ra).mode = s.mode := rfl
@[simp] theorem State.answerRead_h (ra : ReadAddr) : (s.answerRead ra).h = s.h := rfl
@[simp] theorem State.answerRead_count (ra : ReadAddr) : (s.answerRead ra).count = s.count := rfl
@[simp] theorem State.answerRead_tail (ra : ReadAddr) : (s.answerRead ra).tail = s.tail := rfl
@[simp] theorem State.answerRead_tailcnt (ra : ReadAddr) : (s.answerRead ra).tailcnt = s.tailcnt := rfl
@[simp] theorem State.answerRead_declen (ra : ReadAddr) : (s.answerRead ra).declen = s.declen := rfl
@[simp] theorem State.answerRead_result (ra : ReadAddr) : (s.answerRead ra).result = s.result := rfl
@[simp] theorem State.answerRead_done (ra : ReadAddr) : (s.answerRead ra).done = s.done := rfl
@[simp] theorem State.answerRead_err (ra : ReadAddr) : (s.answerRead ra).err = s.err := rfl
@[simp] theorem State.answerRead_cause (ra : ReadAddr) : (s.answerRead ra).cause = s.cause := rfl
@[simp] theorem State.answerRead_resetLine (ra : ReadAddr) : (s.answerRead ra).resetLine = s.resetLine := rfl
@[simp] theorem State.answerRead_inputs (ra : ReadAddr) : (s.answerRead ra).inputs = s.inputs := rfl
@[simp] theorem State.answerRead_reads (ra : ReadAddr) : (s.answerRead ra).reads = (ra, s.readPort ra) :: s.reads := rfl

/-! The host's next command, field by field. -/

@[simp] theorem State.issueCommand_seed (w : CommandWord) : (s.issueCommand w).seed = s.seed := rfl
@[simp] theorem State.issueCommand_seedValid (w : CommandWord) : (s.issueCommand w).seedValid = s.seedValid := rfl
@[simp] theorem State.issueCommand_mode (w : CommandWord) : (s.issueCommand w).mode = s.mode := rfl
@[simp] theorem State.issueCommand_h (w : CommandWord) : (s.issueCommand w).h = s.h := rfl
@[simp] theorem State.issueCommand_count (w : CommandWord) : (s.issueCommand w).count = s.count := rfl
@[simp] theorem State.issueCommand_tail (w : CommandWord) : (s.issueCommand w).tail = s.tail := rfl
@[simp] theorem State.issueCommand_tailcnt (w : CommandWord) : (s.issueCommand w).tailcnt = s.tailcnt := rfl
@[simp] theorem State.issueCommand_declen (w : CommandWord) : (s.issueCommand w).declen = s.declen := rfl
@[simp] theorem State.issueCommand_result (w : CommandWord) : (s.issueCommand w).result = s.result := rfl
@[simp] theorem State.issueCommand_done (w : CommandWord) : (s.issueCommand w).done = s.done := rfl
@[simp] theorem State.issueCommand_err (w : CommandWord) : (s.issueCommand w).err = s.err := rfl
@[simp] theorem State.issueCommand_cause (w : CommandWord) : (s.issueCommand w).cause = s.cause := rfl
@[simp] theorem State.issueCommand_resetLine (w : CommandWord) : (s.issueCommand w).resetLine = false := rfl
@[simp] theorem State.issueCommand_inputs (w : CommandWord) : (s.issueCommand w).inputs = .command w :: s.inputs := rfl
@[simp] theorem State.issueCommand_reads (w : CommandWord) : (s.issueCommand w).reads = s.reads := rfl

end Sys2Proof.Machine
end

