-- ==== Sys2Proof/Laws/Ops.lean ====
section
/-! SUPPORT. What each shared operation can do, said once: the cases of the message checks, and what absorbing bytes
changes and leaves alone. -/

namespace Sys2Proof.Machine

variable {s t : State}

theorem State.openSeeded_of_valid (h : s.seedValid = true) (m : Mode) (h0 n : Word) :
    s.openSeeded m h0 n = s.openMessage m h0 n := by simp [openSeeded, h]

theorem State.openSeeded_of_invalid (h : s.seedValid = false) (m : Mode) (h0 n : Word) :
    s.openSeeded m h0 n = s.fail .seedMissing := by simp [openSeeded, h]

/-- Opening a message succeeds with a seed and fails with SEED_MISSING without one. -/
theorem State.openSeeded_cases (s : State) (m : Mode) (h0 n : Word) :
    (s.seedValid = true ∧ s.openSeeded m h0 n = s.openMessage m h0 n)
      ∨ (s.seedValid = false ∧ s.openSeeded m h0 n = s.fail .seedMissing) := by
  cases h : s.seedValid
  · exact .inr ⟨rfl, openSeeded_of_invalid h m h0 n⟩
  · exact .inl ⟨rfl, openSeeded_of_valid h m h0 n⟩

theorem State.inMessage_of_idle (h : s.mode = .idle) (acc : Mode → Bool) (body : State → State) :
    s.inMessage acc body = s.fail .noMessage := by simp [inMessage, h]

theorem State.inMessage_of_accepted {acc : Mode → Bool} (hi : s.mode ≠ .idle) (ha : acc s.mode = true)
    (body : State → State) : s.inMessage acc body = body s := by simp [inMessage, hi, ha]

theorem State.inMessage_of_mismatch {acc : Mode → Bool} (hi : s.mode ≠ .idle) (ha : acc s.mode = false)
    (body : State → State) : s.inMessage acc body = s.fail .shapeMismatch := by simp [inMessage, hi, ha]

/-- The message checks have three outcomes: NO_MESSAGE, SHAPE_MISMATCH, or the command's body. -/
theorem State.inMessage_cases (s : State) (acc : Mode → Bool) (body : State → State) :
    (s.mode = .idle ∧ s.inMessage acc body = s.fail .noMessage)
      ∨ (s.mode ≠ .idle ∧ acc s.mode = false ∧ s.inMessage acc body = s.fail .shapeMismatch)
      ∨ (s.mode ≠ .idle ∧ acc s.mode = true ∧ s.inMessage acc body = body s) := by
  by_cases hi : s.mode = .idle
  · exact .inl ⟨hi, inMessage_of_idle hi acc body⟩
  · cases ha : acc s.mode
    · exact .inr (.inl ⟨hi, rfl, inMessage_of_mismatch hi ha body⟩)
    · exact .inr (.inr ⟨hi, rfl, inMessage_of_accepted hi ha body⟩)

variable (block : Word → Word → Word) (b : Byte) (bytes : List Byte)

/-- A byte that does not complete a block waits in TAIL. -/
theorem State.absorb_of_lt (h : s.tailcnt.toNat < 3) :
    s.absorb block b = { s with
      count := s.count + 1#32, tail := putTailByte s.tail s.tailcnt.toNat b, tailcnt := s.tailcnt + 1#2 } := by
  simp [absorb, add32, h]

/-- A fourth byte completes a block. -/
theorem State.absorb_of_full (h : s.tailcnt = 3#2) :
    s.absorb block b = { s with
      count := s.count + 1#32, h := block s.h (blockWord s.tail b), tail := 0#24, tailcnt := 0#2 } := by
  simp [absorb, add32, h]

@[simp] theorem State.absorb_seed : (s.absorb block b).seed = s.seed := by unfold absorb; split <;> rfl
@[simp] theorem State.absorb_seedValid : (s.absorb block b).seedValid = s.seedValid := by unfold absorb; split <;> rfl
@[simp] theorem State.absorb_mode : (s.absorb block b).mode = s.mode := by unfold absorb; split <;> rfl
@[simp] theorem State.absorb_count : (s.absorb block b).count = s.count + 1#32 := by unfold absorb; split <;> rfl
@[simp] theorem State.absorb_declen : (s.absorb block b).declen = s.declen := by unfold absorb; split <;> rfl
@[simp] theorem State.absorb_result : (s.absorb block b).result = s.result := by unfold absorb; split <;> rfl
@[simp] theorem State.absorb_done : (s.absorb block b).done = s.done := by unfold absorb; split <;> rfl
@[simp] theorem State.absorb_err : (s.absorb block b).err = s.err := by unfold absorb; split <;> rfl
@[simp] theorem State.absorb_cause : (s.absorb block b).cause = s.cause := by unfold absorb; split <;> rfl
@[simp] theorem State.absorb_resetLine : (s.absorb block b).resetLine = s.resetLine := by unfold absorb; split <;> rfl
@[simp] theorem State.absorb_inputs : (s.absorb block b).inputs = s.inputs := by unfold absorb; split <;> rfl
@[simp] theorem State.absorb_reads : (s.absorb block b).reads = s.reads := by unfold absorb; split <;> rfl

/-- TAILCNT counts absorbed bytes modulo 4. -/
@[simp] theorem State.absorb_tailcnt : (s.absorb block b).tailcnt = s.tailcnt + 1#2 := by
  unfold absorb
  split
  · rfl
  · have h : s.tailcnt = 3#2 := by
      apply BitVec.eq_of_toNat_eq
      have := s.tailcnt.isLt
      simp only [Config.tailBytes] at *
      simp; omega
    simp [h]

/-- What absorbing a list of bytes changes: COUNT, TAILCNT, TAIL and H only. -/
structure SameButStream (s t : State) : Prop where
  seed : t.seed = s.seed
  seedValid : t.seedValid = s.seedValid
  mode : t.mode = s.mode
  declen : t.declen = s.declen
  result : t.result = s.result
  done : t.done = s.done
  err : t.err = s.err
  cause : t.cause = s.cause
  resetLine : t.resetLine = s.resetLine
  inputs : t.inputs = s.inputs
  reads : t.reads = s.reads

theorem SameButStream.refl (s : State) : SameButStream s s := by constructor <;> rfl

theorem absorbAll_frame (s : State) : SameButStream s (bytes.foldl (fun s b => s.absorb block b) s) := by
  induction bytes generalizing s with
  | nil => exact .refl s
  | cons b bytes ih =>
    have h := ih (s.absorb block b)
    constructor <;> simp [List.foldl_cons, h.seed, h.seedValid, h.mode, h.declen, h.result, h.done, h.err, h.cause,
      h.resetLine, h.inputs, h.reads]

theorem absorbAll_count (s : State) :
    (bytes.foldl (fun s b => s.absorb block b) s).count = s.count + BitVec.ofNat 32 bytes.length := by
  induction bytes generalizing s with
  | nil => simp
  | cons b bytes ih =>
    simp only [List.foldl_cons, ih, State.absorb_count, List.length_cons]
    rw [BitVec.add_assoc]; congr 1
    apply BitVec.eq_of_toNat_eq; simp; omega

theorem absorbAll_tailcnt (s : State) :
    (bytes.foldl (fun s b => s.absorb block b) s).tailcnt = s.tailcnt + BitVec.ofNat 2 bytes.length := by
  induction bytes generalizing s with
  | nil => simp
  | cons b bytes ih =>
    simp only [List.foldl_cons, ih, State.absorb_tailcnt, List.length_cons]
    rw [BitVec.add_assoc]; congr 1
    apply BitVec.eq_of_toNat_eq; simp; omega

end Sys2Proof.Machine
end

