-- ==== Sys2Proof/Laws/Exec.lean ====
section
/-! SUPPORT. What one command, one action of the host and one step can do, said once. -/

namespace Sys2Proof.Machine

variable {s t : State} {i : Instr}

theorem absorb3All_eq (s : State) (bytes : List Byte) :
    s.absorb3All bytes = bytes.foldl (fun s b => s.absorb mh3Block b) s := rfl

/-- Every command answers a next state. -/
theorem exec_next (i : Instr) (s : State) : ∃ t, exec i s = .next t := by
  cases i <;> exact ⟨_, rfl⟩

/-- The successful outcomes of a command, and its failure with R202. -/
theorem exec_cases (h : exec i s = .next t) :
    FailedTo s t
      ∨ (∃ a, i = .setseed a ∧ t = { s with seed := a, seedValid := true })
      ∨ (i = .h3initS ∧ s.seedValid = true ∧ t = s.openMessage .h3s s.seed 0#32)
      ∨ (i = .h3initA ∧ s.seedValid = true ∧ t = s.openMessage .h3a s.seed 0#32)
      ∨ (∃ n, i = .h2init n ∧ s.seedValid = true ∧ t = s.openMessage .h2 (s.seed ^^^ n) n)
      ∨ (∃ u, i = .h3put16 u ∧ s.mode = .h3s ∧ t = s.absorb3All (enc16 u))
      ∨ (∃ v, i = .h3put32 v ∧ s.mode = .h3a ∧ t = s.absorb3All (enc32 v))
      ∨ (∃ c, i = .h2put c ∧ s.mode = .h2 ∧ s.count ≠ s.declen ∧ t = s.absorb2 (charByte c))
      ∨ (i = .h3final ∧ (s.mode = .h3s ∨ s.mode = .h3a) ∧ t = s.closeWith s.hash3Value)
      ∨ (i = .h2final ∧ s.mode = .h2 ∧ s.count = s.declen ∧ t = s.closeWith s.hash2Value) := by
  cases i with
  | setseed a => cases h; exact .inr (.inl ⟨a, rfl, rfl⟩)
  | h3initS =>
    cases h
    rcases s.openSeeded_cases .h3s s.seed 0#32 with ⟨hv, he⟩ | ⟨-, he⟩
    · exact .inr (.inr (.inl ⟨rfl, hv, he⟩))
    · exact .inl ⟨_, by decide, he⟩
  | h3initA =>
    cases h
    rcases s.openSeeded_cases .h3a s.seed 0#32 with ⟨hv, he⟩ | ⟨-, he⟩
    · exact .inr (.inr (.inr (.inl ⟨rfl, hv, he⟩)))
    · exact .inl ⟨_, by decide, he⟩
  | h2init n =>
    cases h
    rcases s.openSeeded_cases .h2 (mh2Seed s.seed n) n with ⟨hv, he⟩ | ⟨-, he⟩
    · exact .inr (.inr (.inr (.inr (.inl ⟨n, rfl, hv, he⟩))))
    · exact .inl ⟨_, by decide, he⟩
  | h3put16 u =>
    cases h
    rcases s.inMessage_cases (· == .h3s) fun s => s.absorb3All (enc16 u) with ⟨-, he⟩ | ⟨-, -, he⟩ | ⟨-, hm, he⟩
    · exact .inl ⟨_, by decide, he⟩
    · exact .inl ⟨_, by decide, he⟩
    · exact .inr (.inr (.inr (.inr (.inr (.inl ⟨u, rfl, by simpa using hm, he⟩)))))
  | h3put32 v =>
    cases h
    rcases s.inMessage_cases (· == .h3a) fun s => s.absorb3All (enc32 v) with ⟨-, he⟩ | ⟨-, -, he⟩ | ⟨-, hm, he⟩
    · exact .inl ⟨_, by decide, he⟩
    · exact .inl ⟨_, by decide, he⟩
    · exact .inr (.inr (.inr (.inr (.inr (.inr (.inl ⟨v, rfl, by simpa using hm, he⟩))))))
  | h2put c =>
    cases h
    rcases s.inMessage_cases (· == .h2) fun s =>
        if s.count = s.declen then s.fail .lengthOverrun else s.absorb2 (charByte c) with
      ⟨-, he⟩ | ⟨-, -, he⟩ | ⟨-, hm, he⟩
    · exact .inl ⟨_, by decide, he⟩
    · exact .inl ⟨_, by decide, he⟩
    · by_cases hc : s.count = s.declen
      · rw [if_pos hc] at he; exact .inl ⟨_, by decide, he⟩
      · rw [if_neg hc] at he
        exact .inr (.inr (.inr (.inr (.inr (.inr (.inr (.inl ⟨c, rfl, by simpa using hm, hc, he⟩)))))))
  | h3final =>
    cases h
    rcases s.inMessage_cases (fun m => m == .h3s || m == .h3a) fun s => s.closeWith s.hash3Value with
      ⟨-, he⟩ | ⟨-, -, he⟩ | ⟨-, hm, he⟩
    · exact .inl ⟨_, by decide, he⟩
    · exact .inl ⟨_, by decide, he⟩
    · exact .inr (.inr (.inr (.inr (.inr (.inr (.inr (.inr (.inl ⟨rfl, by simpa using hm, he⟩))))))))
  | h2final =>
    cases h
    rcases s.inMessage_cases (· == .h2) fun s =>
        if s.count ≠ s.declen then s.fail .lengthUnderrun else s.closeWith s.hash2Value with
      ⟨-, he⟩ | ⟨-, -, he⟩ | ⟨-, hm, he⟩
    · exact .inl ⟨_, by decide, he⟩
    · exact .inl ⟨_, by decide, he⟩
    · by_cases hc : s.count = s.declen
      · rw [if_neg (not_not.mpr hc)] at he
        exact .inr (.inr (.inr (.inr (.inr (.inr (.inr (.inr (.inr ⟨rfl, by simpa using hm, hc, he⟩))))))))
      · rw [if_pos hc] at he; exact .inl ⟨_, by decide, he⟩

/-- A command word executes as the command it decodes to, or fails with its decode cause. -/
theorem takeCommand_cases {w : CommandWord} (h : takeCommand w s = .next t) :
    (∃ i, decode w = .ok i ∧ exec i s = .next t) ∨ ((∀ i, decode w ≠ .ok i) ∧ FailedTo s t) := by
  unfold takeCommand at h
  split at h
  · exact .inl ⟨_, ‹_›, h⟩
  · exact .inr ⟨by simp [*], _, by decide, (Host.Outcome.next.inj h).symm⟩
  · exact .inr ⟨by simp [*], _, by decide, (Host.Outcome.next.inj h).symm⟩

/-- What one step can do: wait, ignore a command under reset, execute a command, answer a read, or change the reset
input. -/
theorem step_cases (h : step s = .next t) :
    (s.inputs = [] ∧ t = s)
      ∨ (∃ w rest, s.inputs = .command w :: rest ∧ s.resetLine = true ∧ t = { s with inputs := rest })
      ∨ (∃ w rest, s.inputs = .command w :: rest ∧ s.resetLine = false
          ∧ takeCommand w { s with inputs := rest } = .next t)
      ∨ (∃ ra rest, s.inputs = .read ra :: rest ∧ t = ({ s with inputs := rest } : State).answerRead ra)
      ∨ (∃ rest, s.inputs = .assertReset :: rest ∧ t = ({ s with inputs := rest } : State).assertReset)
      ∨ (∃ rest, s.inputs = .releaseReset :: rest ∧ t = ({ s with inputs := rest } : State).releaseReset) := by
  unfold step at h
  split at h
  · cases h; exact .inl ⟨‹_›, rfl⟩
  · next a rest hin =>
    cases a with
    | command w =>
      cases hr : s.resetLine
      · refine .inr (.inr (.inl ⟨w, rest, hin, rfl, ?_⟩))
        simpa [takeAction, hr] using h
      · refine .inr (.inl ⟨w, rest, hin, rfl, ?_⟩)
        simpa [takeAction, hr] using h.symm
    | read ra => exact .inr (.inr (.inr (.inl ⟨ra, rest, hin, (Host.Outcome.next.inj h).symm⟩)))
    | assertReset => exact .inr (.inr (.inr (.inr (.inl ⟨rest, hin, (Host.Outcome.next.inj h).symm⟩))))
    | releaseReset => exact .inr (.inr (.inr (.inr (.inr ⟨rest, hin, (Host.Outcome.next.inj h).symm⟩))))

/-- A step with an action waiting carries it out. -/
theorem step_of_cons {a : HostAction} {rest : List HostAction} (h : s.inputs = a :: rest) :
    step s = takeAction a { s with inputs := rest } := by simp [step, h]

theorem takeAction_command (w : CommandWord) (h : s.resetLine = false) :
    takeAction (.command w) s = takeCommand w s := by simp [takeAction, h]

theorem runSteps_succ (n : Nat) (h : step s = .next t) : runSteps (n + 1) s = runSteps n t := by
  simp [runSteps, h]

theorem runSteps_add (m n : Nat) (h : runSteps m s = .next t) : runSteps (m + n) s = runSteps n t := by
  induction m generalizing s with
  | zero => cases h; simp
  | succ m ih =>
    rw [Nat.add_right_comm]
    simp only [runSteps] at h ⊢
    split at h
    · exact ih h
    · cases h
    · cases h

/-! The commands in the mode that accepts them, and the commands one after another. -/

theorem exec_h3put16 (u : CodeUnit) (h : s.mode = .h3s) :
    exec (.h3put16 u) s = .next (s.absorb3All (enc16 u)) :=
  congrArg Host.Outcome.next (State.inMessage_of_accepted (by simp [h]) (by simp [h]) _)

theorem exec_h3put32 (v : Word) (h : s.mode = .h3a) : exec (.h3put32 v) s = .next (s.absorb3All (enc32 v)) :=
  congrArg Host.Outcome.next (State.inMessage_of_accepted (by simp [h]) (by simp [h]) _)

theorem exec_h2put (c : CodeUnit) (h : s.mode = .h2) :
    exec (.h2put c) s
      = .next (if s.count = s.declen then s.fail .lengthOverrun else s.absorb2 (charByte c)) :=
  congrArg Host.Outcome.next (State.inMessage_of_accepted (by simp [h]) (by simp [h]) _)

theorem exec_h3final (h : s.mode = .h3s ∨ s.mode = .h3a) : exec .h3final s = .next (s.closeWith s.hash3Value) :=
  congrArg Host.Outcome.next
    (State.inMessage_of_accepted (by rcases h with h | h <;> simp [h]) (by rcases h with h | h <;> simp [h]) _)

theorem exec_h2final (h : s.mode = .h2) :
    exec .h2final s
      = .next (if s.count ≠ s.declen then s.fail .lengthUnderrun else s.closeWith s.hash2Value) :=
  congrArg Host.Outcome.next (State.inMessage_of_accepted (by simp [h]) (by simp [h]) _)

/-- No command changes the boundary's own fields. -/
theorem exec_keeps_boundary (h : exec i s = .next t) :
    t.inputs = s.inputs ∧ t.reads = s.reads ∧ t.resetLine = s.resetLine := by
  have frame (block : Word → Word → Word) (bytes : List Byte) :=
    let f := absorbAll_frame block bytes s
    And.intro f.inputs (And.intro f.reads f.resetLine)
  rcases exec_cases h with ⟨c, hc, rfl⟩ | ⟨a, rfl, rfl⟩ | ⟨rfl, -, rfl⟩ | ⟨rfl, -, rfl⟩ | ⟨n, rfl, -, rfl⟩
    | ⟨u, -, -, rfl⟩ | ⟨v, -, -, rfl⟩ | ⟨c, -, -, -, rfl⟩ | ⟨rfl, -, rfl⟩ | ⟨rfl, -, -, rfl⟩
  · exact ⟨rfl, rfl, rfl⟩
  · exact ⟨rfl, rfl, rfl⟩
  · exact ⟨rfl, rfl, rfl⟩
  · exact ⟨rfl, rfl, rfl⟩
  · exact ⟨rfl, rfl, rfl⟩
  · exact frame mh3Block (enc16 u)
  · exact frame mh3Block (enc32 v)
  · exact frame mh2Block [charByte c]
  · exact ⟨rfl, rfl, rfl⟩
  · exact ⟨rfl, rfl, rfl⟩

theorem execAll_cons {is : List Instr} (h : exec i s = .next t) : execAll (i :: is) s = execAll is t := by
  simp [execAll, h]

theorem execAll_append {a b : List Instr} (h : execAll a s = .next t) : execAll (a ++ b) s = execAll b t := by
  induction a generalizing s with
  | nil => cases h; rfl
  | cons i is ih =>
    obtain ⟨u, hu⟩ := exec_next i s
    rw [execAll_cons hu] at h
    rw [List.cons_append, execAll_cons hu]
    exact ih h

/-! No command looks at what the host will do next. -/

theorem State.absorb_withInputs (s : State) (block : Word → Word → Word) (b : Byte) (l : List HostAction) :
    ({ s with inputs := l } : State).absorb block b = { s.absorb block b with inputs := l } := by
  unfold State.absorb; split <;> rfl

theorem State.absorb3All_withInputs (s : State) (bytes : List Byte) (l : List HostAction) :
    ({ s with inputs := l } : State).absorb3All bytes = { s.absorb3All bytes with inputs := l } := by
  induction bytes generalizing s with
  | nil => rfl
  | cons b bs ih =>
    show State.absorb3All (({ s with inputs := l } : State).absorb mh3Block b) bs = _
    rw [State.absorb_withInputs, ih]; rfl

theorem State.openSeeded_withInputs (s : State) (m : Mode) (h0 n : Word) (l : List HostAction) :
    ({ s with inputs := l } : State).openSeeded m h0 n = { s.openSeeded m h0 n with inputs := l } := by
  unfold State.openSeeded; split <;> rfl

theorem State.inMessage_withInputs (s : State) (acc : Mode → Bool) (body : State → State) (l : List HostAction)
    (hb : body { s with inputs := l } = { body s with inputs := l }) :
    ({ s with inputs := l } : State).inMessage acc body = { s.inMessage acc body with inputs := l } := by
  rcases s.inMessage_cases acc body with ⟨h, e⟩ | ⟨h, h', e⟩ | ⟨h, h', e⟩ <;> rw [e]
  · exact State.inMessage_of_idle (s := { s with inputs := l }) h _ _
  · exact State.inMessage_of_mismatch (s := { s with inputs := l }) h h' _
  · rw [← hb]; exact State.inMessage_of_accepted (s := { s with inputs := l }) h h' _

theorem exec_withInputs (l : List HostAction) (h : exec i s = .next t) :
    exec i { s with inputs := l } = .next { t with inputs := l } := by
  cases i with
  | setseed a => cases h; rfl
  | h3initS => cases h; exact congrArg Host.Outcome.next (s.openSeeded_withInputs _ _ _ l)
  | h3initA => cases h; exact congrArg Host.Outcome.next (s.openSeeded_withInputs _ _ _ l)
  | h2init n => cases h; exact congrArg Host.Outcome.next (s.openSeeded_withInputs _ _ _ l)
  | h3put16 u =>
    cases h; exact congrArg Host.Outcome.next (s.inMessage_withInputs _ _ l (s.absorb3All_withInputs _ l))
  | h3put32 v =>
    cases h; exact congrArg Host.Outcome.next (s.inMessage_withInputs _ _ l (s.absorb3All_withInputs _ l))
  | h3final => cases h; exact congrArg Host.Outcome.next (s.inMessage_withInputs _ _ l rfl)
  | h2put c =>
    cases h; refine congrArg Host.Outcome.next (s.inMessage_withInputs _ _ l ?_)
    dsimp only
    by_cases hc : s.count = s.declen
    · rw [if_pos hc, if_pos hc]; rfl
    · rw [if_neg hc, if_neg hc]; exact s.absorb_withInputs _ _ l
  | h2final =>
    cases h; refine congrArg Host.Outcome.next (s.inMessage_withInputs _ _ l ?_)
    dsimp only
    by_cases hc : s.count ≠ s.declen
    · rw [if_pos hc, if_pos hc]; rfl
    · rw [if_neg hc, if_neg hc]; rfl

end Sys2Proof.Machine
end

