-- ==== Sys2Proof/Laws/PerInstr.lean ====
section
/-! SUPPORT. What holds of every command as syntax, one lemma per constructor. The family `EncodedFields`: the operand
fits its class's must-be-zero bits (spec/30_encoding.md R61), and the opcode map reads back the command from its
opcode value and its operand (R63). -/

namespace Sys2Proof.Laws

def EncodedFields.Statement (i : Instr) : Prop :=
  i.opcode.operandClass.accepts i.operand = true ∧ opcodeOf? i.opcode.code = some i.opcode
    ∧ i.opcode.withOperand i.operand = i

theorem EncodedFields.setseed (seed : Word) : EncodedFields.Statement (.setseed seed) := ⟨rfl, rfl, rfl⟩
theorem EncodedFields.h3initS : EncodedFields.Statement .h3initS := ⟨rfl, rfl, rfl⟩
theorem EncodedFields.h3initA : EncodedFields.Statement .h3initA := ⟨rfl, rfl, rfl⟩
theorem EncodedFields.h3put16 (unit : CodeUnit) : EncodedFields.Statement (.h3put16 unit) :=
  ⟨by simp only [Instr.opcode, Opcode.operandClass, OperandClass.accepts, Instr.operand, class_u_high]; rfl, rfl,
    congrArg Instr.h3put16 (unitOperand_setWidth unit)⟩
theorem EncodedFields.h3put32 (value : Word) : EncodedFields.Statement (.h3put32 value) := ⟨rfl, rfl, rfl⟩
theorem EncodedFields.h3final : EncodedFields.Statement .h3final := ⟨rfl, rfl, rfl⟩
theorem EncodedFields.h2init (length : Word) : EncodedFields.Statement (.h2init length) := ⟨rfl, rfl, rfl⟩
theorem EncodedFields.h2put (char : CodeUnit) : EncodedFields.Statement (.h2put char) :=
  ⟨by simp only [Instr.opcode, Opcode.operandClass, OperandClass.accepts, Instr.operand, class_u_high]; rfl, rfl,
    congrArg Instr.h2put (unitOperand_setWidth char)⟩
theorem EncodedFields.h2final : EncodedFields.Statement .h2final := ⟨rfl, rfl, rfl⟩

end Sys2Proof.Laws
end

