-- ==== Sys2Proof/Laws/Stream.lean ====
section
/-! SUPPORT. Streaming: a byte absorbed at the end of the window is a byte appended to the key (spec/42_mh3.md R138,
spec/43_mh2.md R163). -/

namespace Sys2Proof.Machine

variable (block : Word → Word → Word)

/-- A block fold leaves at most three bytes, as many as the key has beyond its full blocks. -/
theorem blockFold_rest_length (h : Word) (key : List Byte) :
    (blockFold block h key).2.length = key.length % 4 := by
  induction h, key using blockFold.induct block with
  | case1 h b0 b1 b2 b3 rest ih => simp only [blockFold, ih, List.length_cons]; omega
  | case2 => simp [blockFold]
  | case3 => simp [blockFold]
  | case4 => simp [blockFold]
  | case5 => simp [blockFold]

/-- Folding a longer key is folding what is left over together with the new bytes. -/
theorem blockFold_append (h : Word) (key more : List Byte) :
    blockFold block h (key ++ more)
      = blockFold block (blockFold block h key).1 ((blockFold block h key).2 ++ more) := by
  induction h, key using blockFold.induct block with
  | case1 h b0 b1 b2 b3 rest ih => simpa [blockFold] using ih
  | case2 => simp [blockFold]
  | case3 => simp [blockFold]
  | case4 => simp [blockFold]
  | case5 => simp [blockFold]

theorem getLsbD_byteMask (k : Nat) : (0xFF#24).getLsbD k = decide (k < 8) := by
  by_cases h : k < 24
  · have : ∀ k, k < 24 → (0xFF#24).getLsbD k = decide (k < 8) := by decide
    exact this k h
  · rw [BitVec.getLsbD_of_ge _ _ (by omega)]
    simp; omega

/-- `TAIL[8*j+7 : 8*j] <- b`, bit by bit. -/
theorem getLsbD_putTailByte (tail : BitVec 24) (j : Nat) (b : Byte) (i : Nat) (hi : i < 24) :
    (putTailByte tail j b).getLsbD i =
      if 8 * j ≤ i ∧ i < 8 * j + 8 then b.getLsbD (i - 8 * j) else tail.getLsbD i := by
  simp only [putTailByte, BitVec.getLsbD_or, BitVec.getLsbD_and, BitVec.getLsbD_not, BitVec.getLsbD_shiftLeft,
    BitVec.getLsbD_setWidth, getLsbD_byteMask]
  by_cases h1 : 8 * j ≤ i
  · by_cases h2 : i < 8 * j + 8
    · simp [hi, h1, h2, show ¬ i < 8 * j by omega, show i - 8 * j < 8 by omega, show i - 8 * j < 24 by omega]
    · simp [hi, h1, h2, show ¬ i < 8 * j by omega, show ¬ i - 8 * j < 8 by omega,
        BitVec.getLsbD_of_ge b (i - 8 * j) (by omega)]
  · simp [hi, h1, show i < 8 * j by omega]

/-- Byte j of the list is bits [8j+7:8j] of TAIL (R25). -/
theorem getLsbD_packTail (t : List Byte) (i : Nat) (hi : i < 24) :
    (packTail t).getLsbD i = (t.getD (i / 8) 0#8).getLsbD (i % 8) := by
  induction t generalizing i with
  | nil => simp [packTail]
  | cons b t ih =>
    simp only [packTail, BitVec.getLsbD_or, BitVec.getLsbD_shiftLeft, BitVec.getLsbD_setWidth]
    by_cases h : i < 8
    · simp [hi, h, Nat.div_eq_of_lt h, Nat.mod_eq_of_lt h]
    · obtain ⟨k, rfl⟩ : ∃ k, i = k + 8 := ⟨i - 8, by omega⟩
      rw [BitVec.getLsbD_of_ge b (k + 8) (by omega), Nat.add_sub_cancel, ih k (by omega)]
      simp [hi]

/-- The register and the byte list say the same: byte j is written after j held bytes. -/
theorem putTailByte_packTail (t : List Byte) (b : Byte) (_h : t.length < 3) :
    putTailByte (packTail t) t.length b = packTail (t ++ [b]) := by
  apply BitVec.eq_of_getLsbD_eq
  intro i hi
  rw [getLsbD_putTailByte _ _ _ _ hi, getLsbD_packTail _ _ hi, getLsbD_packTail _ _ hi]
  split
  · next hb =>
    rw [List.getD_append_right _ _ _ _ (by omega), show i / 8 - t.length = 0 by omega,
      show i - 8 * t.length = i % 8 by omega]
    rfl
  · next hb =>
    by_cases hl : i / 8 < t.length
    · rw [List.getD_append _ _ _ _ hl]
    · rw [List.getD_eq_default _ _ (by omega), List.getD_eq_default _ _ (by simp; omega)]

/-- A full window and a fourth byte make the block word of the four bytes (R86, R132). -/
theorem blockWord_packTail (a c d b : Byte) : blockWord (packTail [a, c, d]) b = le32 a c d b := by
  apply BitVec.eq_of_getLsbD_eq
  intro i hi
  simp only [blockWord, le32, shl32, zextByte, BitVec.getLsbD_or, BitVec.getLsbD_setWidth, BitVec.getLsbD_shiftLeft]
  by_cases h : i < 24
  · rw [getLsbD_packTail _ _ h]
    obtain h8 | h16 | h24 : i < 8 ∨ (8 ≤ i ∧ i < 16) ∨ (16 ≤ i ∧ i < 24) := by omega
    · simp [hi, h, h8, Nat.div_eq_of_lt h8, Nat.mod_eq_of_lt h8, show i < 16 by omega]
    · simp [hi, h, show i / 8 = 1 by omega, show i % 8 = i - 8 by omega, show ¬ i < 8 by omega, h16.2,
        BitVec.getLsbD_of_ge a i (by omega), show i - 8 < 32 by omega]
    · simp [hi, h, show i / 8 = 2 by omega, show i % 8 = i - 16 by omega, show ¬ i < 8 by omega,
        show ¬ i < 16 by omega, BitVec.getLsbD_of_ge a i (by omega), BitVec.getLsbD_of_ge c (i - 8) (by omega),
        show i - 16 < 32 by omega]
  · simp [hi, h, show ¬ i < 8 by omega, show ¬ i < 16 by omega, BitVec.getLsbD_of_ge a i (by omega),
      BitVec.getLsbD_of_ge c (i - 8) (by omega), BitVec.getLsbD_of_ge d (i - 16) (by omega),
      BitVec.getLsbD_of_ge (packTail [a, c, d]) i (by omega)]

/-- The window's bytes as the partial word of the tail: MurmurHash3's ladder (R123). -/
theorem mh3TailWord_eq_packTail (t : List Byte) (h : t.length ≤ 3) :
    mh3TailWord t = (packTail t).setWidth 32 := by
  apply BitVec.eq_of_getLsbD_eq
  intro i hi
  rw [BitVec.getLsbD_setWidth]
  have hw : (packTail t).getLsbD i = (decide (i < 24) && (t.getD (i / 8) 0#8).getLsbD (i % 8)) := by
    by_cases h24 : i < 24
    · simpa [h24] using getLsbD_packTail t i h24
    · simp [h24, BitVec.getLsbD_of_ge (packTail t) i (by omega)]
  rw [hw]
  obtain h8 | h16 | h24 | h32 : i < 8 ∨ (8 ≤ i ∧ i < 16) ∨ (16 ≤ i ∧ i < 24) ∨ 24 ≤ i := by omega
  · match t, h with
    | [], _ => simp [mh3TailWord]
    | [a], _ => simp [mh3TailWord, zextByte, hi, h8, Nat.div_eq_of_lt h8, Nat.mod_eq_of_lt h8, show i < 24 by omega]
    | [a, c], _ =>
      simp [mh3TailWord, zextByte, shl32, hi, h8, Nat.div_eq_of_lt h8, Nat.mod_eq_of_lt h8, show i < 24 by omega]
    | [a, c, d], _ =>
      simp [mh3TailWord, zextByte, shl32, hi, h8, Nat.div_eq_of_lt h8, Nat.mod_eq_of_lt h8, show i < 24 by omega,
        show i < 16 by omega]
  · have e : i / 8 = 1 := by omega
    have m : i % 8 = i - 8 := by omega
    match t, h with
    | [], _ => simp [mh3TailWord]
    | [a], _ => simp [mh3TailWord, zextByte, BitVec.getLsbD_of_ge a i h16.1, e]
    | [a, c], _ =>
      simp [mh3TailWord, zextByte, shl32, hi, BitVec.getLsbD_of_ge a i h16.1, e, m, show ¬ i < 8 by omega,
        show i < 24 by omega]
    | [a, c, d], _ =>
      simp [mh3TailWord, zextByte, shl32, hi, BitVec.getLsbD_of_ge a i h16.1, e, m, show ¬ i < 8 by omega,
        show i < 24 by omega, h16.2]
  · have e : i / 8 = 2 := by omega
    have m : i % 8 = i - 16 := by omega
    have a0 (a : Byte) : a.getLsbD i = false := BitVec.getLsbD_of_ge a i (by omega)
    have c0 (c : Byte) : c.getLsbD (i - 8) = false := BitVec.getLsbD_of_ge c (i - 8) (by omega)
    match t, h with
    | [], _ => simp [mh3TailWord]
    | [a], _ => simp [mh3TailWord, zextByte, a0, e]
    | [a, c], _ => simp [mh3TailWord, zextByte, shl32, a0, c0, e]
    | [a, c, d], _ =>
      simp [mh3TailWord, zextByte, shl32, hi, a0, c0, e, m, h24.2, show ¬ i < 8 by omega, show ¬ i < 16 by omega]
  · have a0 (a : Byte) : a.getLsbD i = false := BitVec.getLsbD_of_ge a i (by omega)
    have c0 (c : Byte) : c.getLsbD (i - 8) = false := BitVec.getLsbD_of_ge c (i - 8) (by omega)
    have d0 (d : Byte) : d.getLsbD (i - 16) = false := BitVec.getLsbD_of_ge d (i - 16) (by omega)
    match t, h with
    | [], _ => simp [mh3TailWord]
    | [a], _ => simp [mh3TailWord, zextByte, a0, show ¬ i < 24 by omega]
    | [a, c], _ => simp [mh3TailWord, zextByte, shl32, a0, c0, show ¬ i < 24 by omega]
    | [a, c, d], _ => simp [mh3TailWord, zextByte, shl32, a0, c0, d0, show ¬ i < 24 by omega]

/-- The tail test of H3FINAL and of `mh3Tail` do not change the result, since the pipeline maps 0 to 0 (R124). -/
theorem mh3Tail_eq (h : Word) (t : List Byte) : mh3Tail h t = h ^^^ mh3MixK (mh3TailWord t) := by
  unfold mh3Tail
  split
  · next h0 =>
    rw [List.eq_nil_of_length_eq_zero h0, show mh3MixK (mh3TailWord []) = 0#32 by decide, BitVec.xor_zero]
  · rfl

/-- MurmurHash2's tail handler xors the window's partial word in and multiplies once, unless the tail is empty
(R155). -/
theorem mh2Tail_eq (h : Word) (t : List Byte) (h3 : t.length ≤ 3) :
    mh2Tail h t = if t.length = 0 then h else mul32 (h ^^^ mh3TailWord t) mh2M := by
  match t, h3 with
  | [], _ => rfl
  | [a], _ => simp [mh2Tail, mh3TailWord]
  | [a, b], _ => simp [mh2Tail, mh3TailWord, BitVec.xor_assoc]
  | [a, b, c], _ => simp [mh2Tail, mh3TailWord, BitVec.xor_assoc]

variable {s : State} {h0 : Word} {key : List Byte}

theorem tailcnt_toNat_of_absorbed (h : s.Absorbed block h0 key) :
    s.tailcnt.toNat = (blockFold block h0 key).2.length := by
  rw [h.tailcnt, blockFold_rest_length]; simp

/-- Absorbing one byte appends it to the key. -/
theorem State.Absorbed.absorb (h : s.Absorbed block h0 key) (b : Byte) :
    (s.absorb block b).Absorbed block h0 (key ++ [b]) := by
  have hn := tailcnt_toNat_of_absorbed block h
  have hr := blockFold_rest_length block h0 key
  have happ := blockFold_append block h0 key [b]
  refine ⟨?_, ?_, ?_, ?_⟩
  · rw [absorb_count, h.count]
    apply BitVec.eq_of_toNat_eq; simp
  · rw [absorb_tailcnt, h.tailcnt]
    apply BitVec.eq_of_toNat_eq; simp
  all_goals
    obtain hlt | hfull : s.tailcnt.toNat < 3 ∨ s.tailcnt.toNat = 3 := by have := s.tailcnt.isLt; omega
  · rw [absorb_of_lt block b hlt, happ]
    have : (blockFold block (blockFold block h0 key).1 ((blockFold block h0 key).2 ++ [b])).2
        = (blockFold block h0 key).2 ++ [b] := by
      rw [hn] at hlt
      match (blockFold block h0 key).2, hlt with
      | [], _ => rfl
      | [_], _ => rfl
      | [_, _], _ => rfl
    rw [this]
    simp only [h.tail, hn]
    exact putTailByte_packTail _ _ (by omega)
  · rw [absorb_of_full block b (BitVec.eq_of_toNat_eq (by simpa using hfull)), happ]
    rw [hn] at hfull
    match (blockFold block h0 key).2, hfull with
    | [_, _, _], _ => rfl
  · rw [absorb_of_lt block b hlt, happ]
    rw [hn] at hlt
    have h' := h.h
    match (blockFold block h0 key).2, hlt with
    | [], _ => exact h'
    | [_], _ => exact h'
    | [_, _], _ => exact h'
  · rw [absorb_of_full block b (BitVec.eq_of_toNat_eq (by simpa using hfull)), happ]
    rw [hn] at hfull
    have ht := h.tail
    match hk : (blockFold block h0 key).2, hfull with
    | [x, y, z], _ =>
      rw [hk] at ht
      simp [ht, h.h, blockWord_packTail, blockFold]

/-- Absorbing bytes appends them to the key. -/
theorem State.Absorbed.absorbAll (h : s.Absorbed block h0 key) (bytes : List Byte) :
    (bytes.foldl (fun s b => s.absorb block b) s).Absorbed block h0 (key ++ bytes) := by
  induction bytes generalizing s key with
  | nil => simpa using h
  | cons b bytes ih => simpa using ih (h.absorb block b)

/-- A message just opened has absorbed nothing. -/
theorem openMessage_absorbed (s : State) (m : Mode) (h0 n : Word) :
    (s.openMessage m h0 n).Absorbed block h0 [] := ⟨rfl, rfl, rfl, rfl⟩

/-- Only the four stream registers matter. -/
theorem State.Absorbed.congr {t : State} (h : s.Absorbed block h0 key) (hc : t.count = s.count)
    (hn : t.tailcnt = s.tailcnt) (ht : t.tail = s.tail) (hh : t.h = s.h) : t.Absorbed block h0 key :=
  ⟨hc.trans h.count, hn.trans h.tailcnt, ht.trans h.tail, hh.trans h.h⟩

/-- The hash H3FINAL gives is HASH3 of the absorbed key (R138). -/
theorem hash3Value_of_absorbed (h : s.Absorbed mh3Block h0 key) : s.hash3Value = hash3 key h0 := by
  have hl := blockFold_rest_length mh3Block h0 key
  have htail : (if s.tailcnt ≠ 0#2 then s.h ^^^ mh3MixK (s.tail.setWidth 32) else s.h)
      = mh3Tail (blockFold mh3Block h0 key).1 (blockFold mh3Block h0 key).2 := by
    rw [mh3Tail_eq, mh3TailWord_eq_packTail _ (by omega), ← h.tail, ← h.h]
    split
    · rfl
    · next h0' =>
      have hz : (blockFold mh3Block h0 key).2.length = 0 := by
        rw [← tailcnt_toNat_of_absorbed mh3Block h, Decidable.not_not.mp h0']; rfl
      rw [h.tail, List.eq_nil_of_length_eq_zero hz, show mh3MixK ((packTail []).setWidth 32) = 0#32 by decide,
        BitVec.xor_zero]
  simp only [State.hash3Value, hash3, htail, h.count]

/-- The hash H2FINAL gives is hash2 of the absorbed characters, for the seed mixed with their number (R163). -/
theorem hash2Value_of_absorbed (h : s.Absorbed mh2Block h0 key) :
    s.hash2Value = mh2Fmix (mh2Tail (blockFold mh2Block h0 key).1 (blockFold mh2Block h0 key).2) := by
  have hl := blockFold_rest_length mh2Block h0 key
  rw [mh2Tail_eq _ _ (by omega), mh3TailWord_eq_packTail _ (by omega), ← h.tail, ← h.h,
    ← tailcnt_toNat_of_absorbed mh2Block h]
  have : s.tailcnt ≠ 0#2 ↔ ¬ s.tailcnt.toNat = 0 := by
    rw [not_iff_not]
    exact ⟨fun e => by rw [e]; rfl, fun e => BitVec.eq_of_toNat_eq (by simpa using e)⟩
  simp only [State.hash2Value, this, ite_not]

end Sys2Proof.Machine
end

