-- ==== Sys2Proof/Tests/Slice0.lean ====
section
/-! SUPPORT. The model's own tests. Every expected value is a line of spec/95_test_vectors.md or an example of a rule,
named at the test. The last part shows, for each obligation with hypotheses, concrete data that meet them. -/

namespace Sys2Proof.Machine.Tests

/-! ## Ill-formed words: each check refuses (30_encoding.md R64 to R66) -/

theorem test_allZeroWordIsIllFormed :
    wellFormedWord 0x0000000000000000#64 = false ∧ decode 0x0000000000000000#64 = .illegalOpcode := by decide

theorem test_unassignedOpcodesAreIllFormed :
    ([0x0200000000000000#64, 0x0F00000000000000#64, 0x1500000000000000#64, 0x1F00000000000000#64,
        0x2300000000000000#64, 0xFF00000000000000#64] : List CommandWord).all
      (fun w => !wellFormedWord w && decode w == .illegalOpcode) = true := by decide

/-- Opcode before RSV (95_test_vectors.md 2.9). -/
theorem test_opcodeIsCheckedBeforeRsv : decode 0x0012345600000000#64 = .illegalOpcode := by decide

/-- A 1 in the lowest and in the highest bit of RSV, in each class. -/
theorem test_rsvBitsAreIllFormed :
    ([0x0100000100000000#64, 0x0180000000000000#64, 0x1000000100000000#64, 0x1480000000000000#64,
        0x1200000100000000#64, 0x2180000000000000#64] : List CommandWord).all
      (fun w => !wellFormedWord w && decode w == .reservedBits) = true := by decide

theorem test_classZOperandIsIllFormed :
    ([0x1000000000000001#64, 0x1100000080000000#64, 0x1400000000010000#64, 0x2200000000000001#64] :
        List CommandWord).all (fun w => !wellFormedWord w && decode w == .reservedBits) = true := by decide

theorem test_classUHighHalfIsIllFormed :
    ([0x1200000000010073#64, 0x2100000080000061#64] : List CommandWord).all
      (fun w => !wellFormedWord w && decode w == .reservedBits) = true := by decide

/-! ## Decoding, one word written out bit by bit for each opcode (R60, R63): OP, RSV, A -/

theorem test_decodeSetseed :
    decode 0b00000001_000000000000000000000000_00000000000000000000001111101000#64 = .ok (.setseed 1000#32) := by decide
theorem test_decodeH3initS :
    decode 0b00010000_000000000000000000000000_00000000000000000000000000000000#64 = .ok .h3initS := by decide
theorem test_decodeH3initA :
    decode 0b00010001_000000000000000000000000_00000000000000000000000000000000#64 = .ok .h3initA := by decide
theorem test_decodeH3put16 :
    decode 0b00010010_000000000000000000000000_00000000000000001000001101111011#64 = .ok (.h3put16 0x837B#16) := by
  decide
theorem test_decodeH3put32 :
    decode 0b00010011_000000000000000000000000_10101010110011001001100101100101#64 = .ok (.h3put32 0xAACC9965#32) := by
  decide
theorem test_decodeH3final :
    decode 0b00010100_000000000000000000000000_00000000000000000000000000000000#64 = .ok .h3final := by decide
theorem test_decodeH2init :
    decode 0b00100000_000000000000000000000000_10000000000000000000000000000101#64 = .ok (.h2init 0x80000005#32) := by
  decide
theorem test_decodeH2put :
    decode 0b00100001_000000000000000000000000_00000000000000001111111101100001#64 = .ok (.h2put 0xFF61#16) := by decide
theorem test_decodeH2final :
    decode 0b00100010_000000000000000000000000_00000000000000000000000000000000#64 = .ok .h2final := by decide

/-- The host's entry reads the same word. -/
theorem test_decodeTableWord :
    decodeTableWord 64 0x1200000000000073 = some (.h3put16 0x0073#16) ∧ decodeTableWord 64 0 = none := by decide

/-- The three examples of R69. -/
theorem test_assembler :
    assembleCommand .setseed (some (.decimal [1, 0, 0, 0])) = some 0x01000000000003E8#64
      ∧ assembleCommand .setseed (some (.hex [3, 14, 8])) = some 0x01000000000003E8#64
      ∧ assembleCommand .h3put16 (some (.quoted 's')) = some 0x1200000000000073#64
      ∧ assembleCommand .h3final none = some 0x1400000000000000#64
      ∧ assembleCommand .h3put16 (some (.hex [1, 0, 0, 0, 0])) = none
      ∧ assembleCommand .setseed (some (.quoted 's')) = none := by decide

/-- R104: the ends of the range, and the host's error outside it. -/
theorem test_intOperand :
    intOperand? (-1) = some 0xFFFFFFFF#32 ∧ intOperand? (-2147483648) = some 0x80000000#32
      ∧ intOperand? 4294967295 = some 0xFFFFFFFF#32 ∧ intOperand? 4294967296 = none
      ∧ intOperand? (-2147483649) = none := by decide

/-! ## Stages (95_test_vectors.md 2.1 to 2.6) -/

theorem test_arithmetic :
    mul32 0x12345678#32 0xCC9E2D51#32 = 0xF3D273F8#32 ∧ add32 0x1A2B3C4D#32 0xE6546B64#32 = 0x007FA7B1#32
      ∧ rotl32 0x12345678#32 13 = 0x8ACF0246#32 ∧ rotl32 0x12345678#32 15 = 0x2B3C091A#32
      ∧ shr32 0x80000000#32 15 = 0x00010000#32 ∧ le32 0xAA#8 0xCC#8 0x99#8 0x65#8 = 0x6599CCAA#32 := by decide

theorem test_encoder :
    encString [0x837B#16, 0x7AAA#16] = [0x83#8, 0x7B#8, 0x7A#8, 0xAA#8]
      ∧ enc32 0xF8A432EB#32 = [0xF8#8, 0xA4#8, 0x32#8, 0xEB#8]
      ∧ utf16 ['š', '😀'] = [0x0161#16, 0xD83D#16, 0xDE00#16] := by decide

theorem test_mh3Stages :
    mh3MixK 0x61007300#32 = 0x33C0C157#32 ∧ mh3Block 0x000003E8#32 0x61007300#32 = 0x600BEBBC#32
      ∧ mh3TailWord [0x61#8, 0x62#8, 0x63#8] = 0x00636261#32
      ∧ mh3Tail 0xD36F2DEC#32 [0x00#8, 0x61#8] = 0x6276AE63#32 ∧ fmix32 0x6276AE6D#32 = 0xC487FAAE#32 := by decide

theorem test_mh2Stages :
    mh2MixK 0x64636261#32 = 0xECF5B977#32 ∧ mh2Block 0x000003ED#32 0x64636261#32 = 0x9BE44486#32
      ∧ mh2Tail 0x00000000#32 [0x00#8, 0x00#8, 0x01#8] = 0xE9950000#32 ∧ mh2Tail 0x00000005#32 [] = 0x00000005#32
      ∧ mh2Tail 0x12345678#32 [0x61#8, 0x62#8, 0x63#8] = 0x7695138D#32
      ∧ mh2Fmix 0x6CE1B31F#32 = 0x5BBB670D#32 := by decide

/-- The source's own vectors V1, V2 and V3. -/
theorem test_sourceVectors :
    hash3ForString [0x0073#16, 0x0061#16, 0x0069#16, 0x0074#16, 0x0061#16, 0x006D#16, 0x0061#16] 1000
        = BitVec.ofNat 32 3297245870
      ∧ hash3ForString [0x837B#16, 0x7AAA#16] 1000 = BitVec.ofNat 32 3125638387
      ∧ hash3ForInt32Array [BitVec.ofNat 32 2865535333] 1000 = BitVec.ofNat 32 2764721058 := by decide

/-- Residues 1 and 3, which no command reaches (2.4). -/
theorem test_hash3OddResidues :
    hash3 [0x61#8] 0#32 = 0x3C2569B2#32 ∧ hash3 [0x61#8, 0x62#8, 0x63#8] 1000#32 = 0x6BEF73F7#32
      ∧ hash3 [0x00#8, 0x73#8, 0x00#8, 0x61#8, 0x00#8] 0xFFFFFFFF#32 = 0x4CEF4C81#32 := by decide

/-- 2.7: the empty text, a full block, a block and a tail, and a character above 0xFF. -/
theorem test_hash2 :
    hash2 [] 1000#32 = 0xABF939F8#32
      ∧ hash2 [0x61#16, 0x62#16, 0x63#16, 0x64#16] 0#32 = 0x26873021#32
      ∧ hash2 [0x61#16, 0x62#16, 0x63#16, 0x64#16, 0x65#16] 1000#32 = 0x5BBB670D#32
      ∧ hash2 [0x0161#16] 0xFFFFFFFF#32 = 0x2A874496#32 := by decide

/-! ## One step of each command (95_test_vectors.md 2.8, 2.9 and section 3) -/

/-- The state after one command word, written by the host (`s` where the machine stops, which it never does). -/
def after (s : State) (w : Nat) : State :=
  match step (s.withFetchWord 64 w) with
  | .next t => t
  | .fault _ => s
  | .refused _ => s

/-- SEED = 1000, SEED_VALID = 1, no message open. -/
def seeded : State := { State.reset with seed := 1000#32, seedValid := true }

/-- A message just opened with seed 1000. -/
def openAs (m : Mode) (h declen : Word) : State := { seeded with mode := m, h := h, declen := declen }

/-- A MurmurHash2 message of `declen` characters opened with seed 0 (so H = `declen`), its first character 'a' put. -/
def oneChar (declen : Word) : State :=
  { openAs .h2 declen declen with count := 1#32, tail := 0x000061#24, tailcnt := 1#2 }

theorem test_resetStatus : State.reset.status = 0x00000000#32 := by decide

theorem test_setseed :
    (after State.reset 0x0100000000000007).status = 0x00000080#32
      ∧ (after State.reset 0x0100000000000007).seed = 0x00000007#32 := by decide

theorem test_h3initS :
    (after seeded 0x1000000000000000).status = 0x00000081#32 ∧ (after seeded 0x1000000000000000).h = 0x000003E8#32 := by
  decide

theorem test_h3initA :
    (after seeded 0x1100000000000000).status = 0x00000082#32 ∧ (after seeded 0x1100000000000000).h = 0x000003E8#32 := by
  decide

theorem test_h2init :
    (after seeded 0x2000000000000005).status = 0x00000083#32 ∧ (after seeded 0x2000000000000005).h = 0x000003ED#32
      ∧ (after seeded 0x2000000000000005).declen = 5#32 := by decide

theorem test_h3put16 :
    let s := after (openAs .h3s 1000#32 0#32) 0x1200000000000073
    s.status = 0x00000281#32 ∧ s.count = 2#32 ∧ s.tail = 0x007300#24 ∧ s.h = 0x000003E8#32 := by decide

theorem test_h3put16CompletesBlock :
    let s := after { openAs .h3s 1000#32 0#32 with count := 2#32, tail := 0x007300#24, tailcnt := 2#2 }
      0x1200000000000061
    s.status = 0x00000081#32 ∧ s.count = 4#32 ∧ s.tail = 0#24 ∧ s.h = 0x600BEBBC#32 := by decide

theorem test_h3put32 :
    let s := after (openAs .h3a 1000#32 0#32) 0x13000000AACC9965
    s.status = 0x00000082#32 ∧ s.count = 4#32 ∧ s.h = 0x71E0BB16#32 := by decide

/-- The last command of P1. -/
theorem test_h3finalWithTail :
    let s := after { openAs .h3s 0xD36F2DEC#32 0#32 with count := 14#32, tail := 0x006100#24, tailcnt := 2#2 }
      0x1400000000000000
    s.status = 0x00000084#32 ∧ s.result = 0xC487FAAE#32 ∧ s.h = 0xC487FAAE#32 ∧ s.count = 14#32 ∧ s.tail = 0#24 := by
  decide

/-- The last command of P6: a second H3FINAL fails and keeps RESULT. -/
theorem test_secondH3final :
    let s := after { State.reset with seedValid := true, done := true, result := 0xCFF72176#32, h := 0xCFF72176#32 }
      0x1400000000000000
    s.status = 0x000000C8#32 ∧ s.result = 0xCFF72176#32 := by decide

theorem test_h2put :
    let s := after { openAs .h2 0x000003ED#32 5#32 with count := 3#32, tail := 0x636261#24, tailcnt := 3#2 }
      0x2100000000000064
    s.status = 0x00000083#32 ∧ s.h = 0x9BE44486#32 ∧ s.count = 4#32 ∧ s.tail = 0#24 := by decide

theorem test_h2putOverrun :
    let s := after (oneChar 1#32) 0x2100000000000062
    s.status = 0x000001E8#32 ∧ s.tail = 0x61#24 ∧ s.count = 1#32 := by decide

theorem test_h2final :
    let s := after { openAs .h2 0x9BE44486#32 5#32 with count := 5#32, tail := 0x65#24, tailcnt := 1#2 }
      0x2200000000000000
    s.status = 0x00000084#32 ∧ s.result = 0x5BBB670D#32 ∧ s.declen = 5#32 := by decide

theorem test_h2finalUnderrun :
    (after (oneChar 3#32) 0x2200000000000000).status = 0x000001F8#32 := by decide

/-- The reset rows of 2.9, one for each cause that reset can show. -/
theorem test_errorsFromReset :
    (after State.reset 0xFF00000000000000).status = 0x00000018#32
      ∧ (after State.reset 0x1000000100000000).status = 0x00000028#32
      ∧ (after State.reset 0x2000000000000003).status = 0x00000038#32
      ∧ (after State.reset 0x1200000000000073).status = 0x00000048#32
      ∧ (after (after State.reset 0x1000000000000000) 0x1400000000000000).status = 0x00000038#32 := by decide

/-- The shape rows of 2.9, each from an open message with seed 0. -/
theorem test_shapeMismatches :
    let opened (m : Mode) : State := { State.reset with seedValid := true, mode := m, declen := 0#32 }
    (after (opened .h3s) 0x1300000000000000).status = 0x000000D8#32
      ∧ (after (opened .h3s) 0x2100000000000061).status = 0x000000D8#32
      ∧ (after (opened .h3a) 0x1200000000000061).status = 0x000000D8#32
      ∧ (after (opened .h2) 0x1400000000000000).status = 0x000000D8#32 := by decide

/-- The reads of 2.8's last row, RA 0 to 7. -/
theorem test_reads :
    let s := after (openAs .h3s 1000#32 0#32) 0x1200000000000073
    [0#3, 1#3, 2#3, 3#3, 4#3, 5#3, 6#3, 7#3].map s.readPort
      = [0x281#32, 0#32, 0x3E8#32, 0x3E8#32, 2#32, 0#32, 0x7300#32, 0#32] := by decide

/-- R188: a call the host must reject before any command. -/
theorem test_hostRejects :
    hostCall .hash3ForString .missing (.number 0) = none ∧ hostCall .hash2 (.array [1]) (.number 0) = none
      ∧ hostCall .hash3ForInt32Array (.array [-1]) .missing = none
      ∧ hostCall .hash2 (.string []) (.number (2 ^ 32 + 1))
        = some [.command 0x0100000000000001#64, .command 0x2000000000000000#64, .command 0x2200000000000000#64,
            .read 0#3, .read 1#3] := by decide

/-! ## Witnesses: data that meet the hypotheses of each obligation that has some -/

/-- A state with a host action waiting. -/
def waiting (s : State) (a : HostAction) : State := { s with inputs := [a] }

/-- Inside a string message, one code unit in. -/
def inString : State := { openAs .h3s 1000#32 0#32 with count := 2#32, tail := 0x007300#24, tailcnt := 2#2 }

/-- Inside an array message, one integer in. -/
def inArray : State := { openAs .h3a 0x71E0BB16#32 0#32 with count := 4#32 }

/-- Inside a MurmurHash2 message of five characters, three of them put. -/
def inChars : State := { openAs .h2 0x000003ED#32 5#32 with count := 3#32, tail := 0x636261#24, tailcnt := 3#2 }

/-- A MurmurHash2 message with all its characters. -/
def fullChars : State := { openAs .h2 0x9BE44486#32 5#32 with count := 5#32, tail := 0x65#24, tailcnt := 1#2 }

/-- After an error. -/
def failed : State := inString.fail .shapeMismatch

/-- After a successful final command. -/
def finished : State := fullChars.closeWith 0x5BBB670D#32

theorem witness_inv :
    State.reset.Inv ∧ inString.Inv ∧ inArray.Inv ∧ inChars.Inv ∧ fullChars.Inv ∧ failed.Inv ∧ finished.Inv := by
  refine ⟨?_, ?_, ?_, ?_, ?_, ?_, ?_⟩ <;> constructor <;> decide

theorem witness_seedInv : inString.SeedInv ∧ inArray.SeedInv ∧ inChars.SeedInv ∧ failed.SeedInv ∧ finished.SeedInv := by
  refine ⟨?_, ?_, ?_, ?_, ?_⟩ <;> constructor <;> decide

/-- The three clauses of the reset input: a step while it is being asserted, its next state, and a command held off. -/
theorem witness_AssertedResetClearsAndHolds :
    (waiting inString .assertReset).inputs = .assertReset :: []
      ∧ step (waiting inString .assertReset) = .next { State.reset with resetLine := true }
      ∧ (waiting { State.reset with resetLine := true } (.command 0x0100000000000007#64)).resetLine = true := by
  refine ⟨rfl, rfl, rfl⟩

theorem witness_StepsKeepRegistersResetWhileHeld :
    (waiting { State.reset with resetLine := true } (.command 0x0100000000000007#64)).HeldInReset
      ∧ step (waiting { State.reset with resetLine := true } (.command 0x0100000000000007#64))
        = .next { State.reset with resetLine := true } :=
  ⟨fun _ => rfl, rfl⟩

theorem witness_DecodedWordIsItsOwnEncoding : decode 0x120000000000FFFF#64 = .ok (.h3put16 0xFFFF#16) := by decide

/-- A word of each class at the top of its operand's range meets its row, with RSV = 0. -/
theorem witness_DecoderAgreesWithMatchAndMask :
    ([0x01000000FFFFFFFF#64, 0x1000000000000000#64, 0x210000000000FFFF#64] : List CommandWord).all
      (fun w => opcodeTable.any (fun r => r.matches w) && w.extractLsb' 32 24 == 0#24) = true := by decide

/-- Both ends of each unassigned range (R65). -/
theorem witness_UnassignedOpcodesAreIllegal :
    ([0x0000000000000000#64, 0x0200000000000000#64, 0x0FFFFFFFFFFFFFFF#64, 0x1500000000000000#64,
        0x1F00000000000001#64, 0x2300000000000000#64, 0xFF00000000000000#64] : List CommandWord).all
      (fun w =>
        let op := (w.extractLsb' 56 8).toNat
        op = 0x00 ∨ (0x02 ≤ op ∧ op ≤ 0x0F) ∨ (0x15 ≤ op ∧ op ≤ 0x1F) ∨ (0x23 ≤ op ∧ op ≤ 0xFF)) = true := by decide

/-- One word for each of the three alternatives, with the lowest bit of the field set. -/
theorem witness_ReservedBitsAreNeverIgnored :
    (0x0100000100000000#64).extractLsb' 56 8 = 0x01#8 ∧ (0x0100000100000000#64).extractLsb' 32 24 ≠ 0#24
      ∧ (0x2200000000000001#64).extractLsb' 56 8 = 0x22#8 ∧ (0x2200000000000001#64).extractLsb' 0 32 ≠ 0#32
      ∧ (0x1200000000010000#64).extractLsb' 56 8 = 0x12#8 ∧ (0x1200000000010000#64).extractLsb' 16 16 ≠ 0#16 := by
  decide

/-- No operand, and an operand at the top of each class's range. -/
theorem witness_AssembledLinesDecode :
    assembleCommand .h2final none = some 0x2200000000000000#64
      ∧ assembleCommand .h2put (some (.hex [15, 15, 15, 15])) = some 0x210000000000FFFF#64
      ∧ assembleCommand .h2init (some (.decimal [4, 2, 9, 4, 9, 6, 7, 2, 9, 5])) = some 0x20000000FFFFFFFF#64 := by decide

/-- The opcodes of the `takeCommand` clauses, with a word of each outcome. -/
theorem witness_commandWords :
    ([(0x01#8, 0x0100000000000000#64), (0x01#8, 0x0100000100000000#64), (0x10#8, 0x1000000000000000#64),
        (0x11#8, 0x1100000000000000#64), (0x12#8, 0x120000000000FFFF#64), (0x12#8, 0x1200000000010000#64),
        (0x13#8, 0x13000000FFFFFFFF#64), (0x14#8, 0x1400000000000000#64), (0x20#8, 0x20000000FFFFFFFF#64),
        (0x21#8, 0x2100000080000000#64), (0x22#8, 0x2200000000000001#64)] : List (BitVec 8 × CommandWord)).all
      (fun p => p.2.extractLsb' 56 8 == p.1) = true := by decide

/-- H3INIT_S, H3INIT_A and H2INIT: with a seed, and without one. -/
theorem witness_initCommands : seeded.seedValid = true ∧ State.reset.seedValid = false := by decide

/-- H3PUT16: its mode with TAILCNT 0 and 2 and a next state, IDLE, and the two other modes. -/
theorem witness_H3Put16AbsorbsUpperByteFirst :
    (openAs .h3s 1000#32 0#32).mode = .h3s ∧ (openAs .h3s 1000#32 0#32).tailcnt = 0#2 ∧ inString.mode = .h3s
      ∧ inString.tailcnt = 2#2 ∧ seeded.mode = .idle ∧ inArray.mode = .h3a ∧ inChars.mode = .h2
      ∧ (∃ t, exec (.h3put16 0xFFFF#16) (openAs .h3s 1000#32 0#32) = .next t)
      ∧ ∃ t, exec (.h3put16 0xFFFF#16) inString = .next t :=
  ⟨rfl, rfl, rfl, rfl, rfl, rfl, rfl, ⟨_, rfl⟩, ⟨_, rfl⟩⟩

theorem witness_H3Put32MixesTheReversedWord :
    inArray.Inv ∧ inArray.mode = .h3a ∧ seeded.mode = .idle ∧ inString.mode = .h3s ∧ inChars.mode = .h2 :=
  ⟨witness_inv.2.2.1, rfl, rfl, rfl, rfl⟩

theorem witness_H3FinalGivesTheResult :
    inArray.Inv ∧ inArray.tailcnt = 0#2 ∧ inString.mode = .h3s ∧ inArray.mode = .h3a ∧ seeded.mode = .idle ∧ inChars.mode = .h2 :=
  ⟨witness_inv.2.2.1, rfl, by decide⟩

/-- A MurmurHash2 message of no characters. -/
def noChars : State := openAs .h2 1000#32 0#32

/-- H2PUT with one character to come, with none, and with none declared, and the other modes. -/
theorem witness_H2PutAbsorbsTheLowByte :
    noChars.Inv ∧ noChars.mode = .h2 ∧ noChars.declen = 0#32 ∧
    inChars.mode = .h2 ∧ inChars.count ≠ inChars.declen ∧ fullChars.mode = .h2 ∧ fullChars.count = fullChars.declen
      ∧ seeded.mode = .idle ∧ inString.mode = .h3s ∧ inArray.mode = .h3a :=
  ⟨by constructor <;> decide, rfl, rfl, by decide⟩

theorem witness_H2FinalGivesTheResult :
    fullChars.mode = .h2 ∧ fullChars.count = fullChars.declen ∧ inChars.Inv ∧ inChars.mode = .h2
      ∧ inChars.count ≠ inChars.declen ∧ seeded.mode = .idle ∧ inString.mode = .h3s ∧ inArray.mode = .h3a :=
  ⟨rfl, rfl, witness_inv.2.2.2.1, rfl, by decide, rfl, rfl, rfl⟩

/-- TAILCNT at 0, 2 and 3. -/
theorem witness_AbsorbFillsTheTailThenMixes :
    seeded.tailcnt.toNat < 3 ∧ inString.tailcnt.toNat < 3 ∧ inChars.tailcnt.toNat = 3 := by decide

theorem witness_PutCommandsFrame :
    isPut (.h3put32 7#32) = true ∧ (∃ t, exec (.h3put32 7#32) inArray = .next t)
      ∧ ∃ t, exec (.h3put32 7#32) inString = .next t := ⟨rfl, ⟨_, rfl⟩, ⟨_, rfl⟩⟩

theorem witness_FailKeepsFirstCauseAndCloses :
    Cause.shapeMismatch ≠ .none ∧ isPut (.h2put 0x0061#16) = true ∧ isFinal .h3final = true := by decide

/-- Every cause is the first of some word and state, and some word has none. -/
theorem witness_CommandsFailWithTheFirstCause :
    firstCause 0#64 seeded = some .illegalOpcode ∧ firstCause 0x1200000000010000#64 seeded = some .reservedBits
      ∧ firstCause 0x1000000000000000#64 State.reset = some .seedMissing
      ∧ firstCause 0x1200000000000061#64 seeded = some .noMessage
      ∧ firstCause 0x2100000000000061#64 { inString with declen := inString.count } = some .shapeMismatch
      ∧ firstCause 0x2100000000000061#64 fullChars = some .lengthOverrun
      ∧ firstCause 0x2200000000000000#64 inChars = some .lengthUnderrun
      ∧ firstCause 0x2200000000000000#64 fullChars = none := by decide

/-- An error that a reset clears, and one that an init clears; an init with a seed and one without. -/
theorem witness_OnlyInitOrResetClearsError :
    (waiting failed .assertReset).err = true
      ∧ step (waiting failed .assertReset) = .next { State.reset with resetLine := true }
      ∧ (waiting failed (.command 0x1000000000000000#64)).err = true
      ∧ (∃ t, step (waiting failed (.command 0x1000000000000000#64)) = .next t ∧ t.err = false)
      ∧ isInit (.h2init 5#32) = true ∧ seeded.seedValid = true ∧ State.reset.seedValid = false
      ∧ (0x2000000100000000#64).extractLsb' 56 8 = 0x20#8 ∧ decode 0x2000000100000000#64 = .reservedBits :=
  ⟨rfl, rfl, rfl, ⟨_, rfl, rfl⟩, rfl, rfl, rfl, by decide, by decide⟩

theorem witness_ErrorsDoNotBlockTheEngine :
    Cause.noMessage ≠ .none ∧ Cause.lengthOverrun ≠ .none ∧ failed.err = true ∧ failed.seedValid = true
      ∧ isInit .h3initS = true := by decide

/-- A command that decodes, an unassigned opcode, a reserved bit, a release of the reset input, and nothing. -/
theorem witness_StepRunsTheDecodedCommand :
    (waiting inChars (.command 0x2100000000000064#64)).inputs = .command 0x2100000000000064#64 :: []
      ∧ (waiting inChars (.command 0x2100000000000064#64)).resetLine = false
      ∧ decode 0x2100000000000064#64 = .ok (.h2put 0x0064#16) ∧ decode 0x0000000000000000#64 = .illegalOpcode
      ∧ decode 0x1400000000000001#64 = .reservedBits
      ∧ (waiting { State.reset with resetLine := true } .releaseReset).inputs = .releaseReset :: []
      ∧ State.reset.inputs = [] := by decide

theorem witness_ReadsChangeNoRegister : (waiting inString (.read 6#3)).inputs = .read 6#3 :: [] := rfl

/-- Steps that write the seed, the result, the counter, and none of them. -/
theorem witness_stepsThatWrite :
    (∃ t, step (waiting inString (.command 0x0100000000000007#64)) = .next t ∧ t.seed = 7#32)
      ∧ (∃ t, step (waiting fullChars (.command 0x2200000000000000#64)) = .next t ∧ t.result = 0x5BBB670D#32)
      ∧ (∃ t, step (waiting inArray (.command 0x1300000000000000#64)) = .next t ∧ t.count = 8#32)
      ∧ (∃ t, step (waiting inString .assertReset) = .next t ∧ t.count = 0#32)
      ∧ isInit .h3initA = true ∧ State.reset.seedValid = false := by
  refine ⟨⟨_, rfl, by decide⟩, ⟨_, rfl, by decide⟩, ⟨_, rfl, by decide⟩, ⟨_, rfl, rfl⟩, rfl, rfl⟩

theorem witness_StepsKeepTheInvariants :
    (waiting inString (.command 0x1200000000000061#64)).Inv
      ∧ ∃ t, step (waiting inString (.command 0x1200000000000061#64)) = .next t :=
  ⟨by constructor <;> decide, _, rfl⟩

theorem witness_StepsKeepTheSeedInvariants :
    (waiting inString (.command 0x1400000000000000#64)).SeedInv
      ∧ ∃ t, step (waiting inString (.command 0x1400000000000000#64)) = .next t :=
  ⟨by constructor <;> decide, _, rfl⟩

/-- The message machine of a string message one code unit in, its next command, and the step. -/
theorem witness_StepsRefineTheMessageMachine :
    (waiting inString (.command 0x1200000000000061#64)).Refines ⟨some 1000#32, .string 1000#32 [0x0073#16], none, .none⟩
      ∧ (waiting inString (.command 0x1200000000000061#64)).inputs = .command 0x1200000000000061#64 :: []
      ∧ ∃ t, step (waiting inString (.command 0x1200000000000061#64)) = .next t :=
  ⟨⟨by decide, ⟨rfl, by constructor <;> decide⟩, by decide, by decide, by decide⟩, rfl, _, rfl⟩

/-- A message of each shape, with a SETSEED between its puts. -/
theorem witness_StreamingEqualsHash3 :
    seeded.seedValid = true
      ∧ (∀ i ∈ [Instr.h3put16 0x0073#16, .setseed 7#32], (∃ u, i = .h3put16 u) ∨ ∃ a, i = .setseed a)
      ∧ ∀ i ∈ [Instr.h3put32 7#32, .setseed 7#32], (∃ v, i = .h3put32 v) ∨ ∃ a, i = .setseed a := by
  refine ⟨rfl, fun i hi => ?_, fun i hi => ?_⟩ <;> simp only [List.mem_cons, List.not_mem_nil, or_false] at hi <;>
    rcases hi with rfl | rfl
  · exact .inl ⟨_, rfl⟩
  · exact .inr ⟨_, rfl⟩
  · exact .inl ⟨_, rfl⟩
  · exact .inr ⟨_, rfl⟩

theorem witness_StreamingEqualsHash2 :
    seeded.seedValid = true ∧ ([0x61#16, 0x62#16] : List CodeUnit).length < 2 ^ 32 := by decide

/-- The program waits at the command port, the reset input is released, and the seed register already holds the seed;
the longest text the last statement speaks of. -/
theorem witness_programs :
    ({ seeded with inputs := hash3ForStringProgram [0x0073#16] 1000 } : State).inputs
        = hash3ForStringProgram [0x0073#16] 1000 ++ []
      ∧ ({ seeded with inputs := hash3ForInt32ArrayProgram [7#32] 1000 } : State).inputs
        = hash3ForInt32ArrayProgram [7#32] 1000 ++ []
      ∧ ({ seeded with inputs := hash2Program [0x0061#16] 1000 } : State).inputs = hash2Program [0x0061#16] 1000 ++ []
      ∧ seeded.resetLine = false ∧ seeded.seedValid = true ∧ seeded.seed = seedOperand 1000
      ∧ ([0x0061#16] : List CodeUnit).length < 2 ^ 32
      ∧ (List.replicate (2 ^ 32 - 1) 0x0061#16).length < 2 ^ 32 := by
  refine ⟨rfl, rfl, rfl, rfl, rfl, rfl, by decide, ?_⟩
  rw [List.length_replicate]; decide

theorem witness_LongMurmurHash2TextOverruns :
    seeded.seedValid = true ∧ 2 ^ 32 ≤ (List.replicate (2 ^ 32) 0x0061#16).length := by
  rw [List.length_replicate]; exact ⟨rfl, Nat.le_refl _⟩

/-- Two states with one seed and different pasts, and the same message from both. -/
theorem witness_ResultForgetsEarlierMessages :
    isInit .h3initS = true ∧ seeded.seedValid = true ∧ failed.seedValid = true ∧ seeded.seed = failed.seed
      ∧ seeded ≠ failed ∧ (∃ t, execAll [.h3initS, .h3put16 0x0073#16, .h3final] seeded = .next t ∧ t.done = true)
      ∧ ∃ t, execAll [.h3initS, .h3put16 0x0073#16, .h3final] failed = .next t ∧ t.done = true :=
  ⟨rfl, rfl, rfl, rfl, by decide, ⟨_, rfl, rfl⟩, ⟨_, rfl, rfl⟩⟩

/-- The ends of the amounts, bits and constants of the arithmetic statements. -/
theorem witness_arithmetic :
    0 < 32 ∧ 31 < 32 ∧ (0 < 1 ∧ 1 < 32) ∧ mh3M5 ∈ [mh3C1, mh3C2, mh3M5, mh3F1, mh3F2, mh2M] := by decide

theorem witness_ReachableResidues :
    inString.Inv ∧ inArray.Inv ∧ (∃ t, exec (.h3put16 0x0061#16) inString = .next t ∧ t.mode = .h3s)
      ∧ ∃ t, exec (.h3put32 7#32) inArray = .next t ∧ t.mode = .h3a :=
  ⟨witness_inv.2.1, witness_inv.2.2.1, ⟨_, rfl, rfl⟩, ⟨_, rfl, rfl⟩⟩

/-- 'a' and 'š' (R158). -/
theorem witness_MurmurHash2SeesLowBytesOnly :
    ([0x0061#16] : List CodeUnit).map (fun c => c.extractLsb' 0 8)
        = ([0x0161#16] : List CodeUnit).map (fun c => c.extractLsb' 0 8)
      ∧ (0x0061#16).extractLsb' 0 8 = (0x0161#16 : CodeUnit).extractLsb' 0 8 := by decide

end Sys2Proof.Machine.Tests
end

namespace Sys2Proof.Machine

/-! ## The engine refines the message machine (spec/00_scope.md R16)

One lemma for each thing a command can do to the state, each with its counterpart in `Session`; then one lemma for each
command that looks at the open message, by the message's shape. -/

section Refinement

variable {s t : State} {g : Session} {m : Message} {c : Cause}

/-- What `State.Holds` reads of the state is the message context. -/
theorem State.Holds.congr (h : s.Holds m) (hmode : t.mode = s.mode) (hdeclen : t.declen = s.declen)
    (hcount : t.count = s.count) (htailcnt : t.tailcnt = s.tailcnt) (htail : t.tail = s.tail) (hh : t.h = s.h) :
    t.Holds m := by
  cases m with
  | none => exact hmode.trans h
  | string σ text => exact ⟨hmode.trans h.1, h.2.congr _ hcount htailcnt htail hh⟩
  | array σ values => exact ⟨hmode.trans h.1, h.2.congr _ hcount htailcnt htail hh⟩
  | chars σ n text =>
    obtain ⟨hm, hn, hle, ha⟩ := h
    exact ⟨hmode.trans hm, hdeclen.trans hn, hle, ha.congr _ hcount htailcnt htail hh⟩

/-- The mode of an engine that holds the message. -/
def Message.mode : Message → Mode
  | .none => .idle
  | .string _ _ => .h3s
  | .array _ _ => .h3a
  | .chars _ _ _ => .h2

theorem State.Holds.mode_eq (h : s.Holds m) : s.mode = m.mode := by
  cases m with
  | none => exact h
  | string => exact h.1
  | array => exact h.1
  | chars => exact h.1

/-- The boundary's own fields play no part in the refinement. -/
theorem State.Refines.withBoundary (h : s.Refines g) (reset : Bool) (inputs : List HostAction)
    (reads : List (ReadAddr × Word)) :
    ({ s with resetLine := reset, inputs := inputs, reads := reads } : State).Refines g :=
  ⟨h.seed, h.message.congr rfl rfl rfl rfl rfl rfl, h.answer, h.cause, h.err⟩

theorem State.Refines.fail (h : s.Refines g) (hc : c ≠ .none) : (s.fail c).Refines (g.reject c) := by
  have hcause : (g.reject c).error = (s.fail c).cause := by
    cases he : s.err
    · simp [Session.reject, h.cause, he, h.err.mp he]
    · simp [Session.reject, h.cause, he, mt h.err.mpr (by simp [he])]
  refine ⟨h.seed, rfl, rfl, hcause, ?_⟩
  cases he : s.err
  · simp [he, hc]
  · simpa [he] using mt h.err.mpr (by simp [he])

/-- SETSEED does not touch the open message (R180). -/
theorem State.Refines.setseed (h : s.Refines g) (a : Word) :
    ({ s with seed := a, seedValid := true } : State).Refines { g with seed := some a } :=
  ⟨rfl, h.message.congr rfl rfl rfl rfl rfl rfl, h.answer, h.cause, h.err⟩

/-- Opening a message starts the source's message with the seed, or is its missing-seed error. -/
theorem State.Refines.openSeeded (h : s.Refines g) {mode : Mode} {h0 n : Word} {message : Word → Message}
    (hm : (s.openMessage mode h0 n).Holds (message s.seed)) :
    (s.openSeeded mode h0 n).Refines (g.start message) := by
  have hseed := h.seed
  rcases s.openSeeded_cases mode h0 n with ⟨hv, he⟩ | ⟨hv, he⟩
  · rw [if_pos hv] at hseed
    simp only [he, Session.start, hseed]
    exact ⟨by simp [hv], hm, rfl, rfl, by simp⟩
  · rw [if_neg (by simp [hv])] at hseed
    simp only [he, Session.start, hseed]
    exact h.fail (by decide)

/-- A command that only feeds the stream changes only the message. -/
theorem State.Refines.feed (h : s.Refines g) (f : SameButStream s t) (hm : t.Holds m) :
    t.Refines { g with message := m } :=
  ⟨by simp [f.seed, f.seedValid, h.seed], hm, by simp [f.done, f.result, h.answer], by simp [f.cause, h.cause],
    by simp [f.err, f.cause, h.err]⟩

/-- Closing the message with a hash answers that hash. -/
theorem State.Refines.closeWith (h : s.Refines g) (x : Word) :
    (s.closeWith x).Refines { g with message := .none, answer := some x } :=
  ⟨h.seed, rfl, rfl, h.cause, h.err⟩

/-- The message checks with no message open. -/
theorem State.Refines.noMessage (h : s.Refines g) (hm : g.message = .none) (accepts : Mode → Bool)
    (body : State → State) : (s.inMessage accepts body).Refines (g.reject .noMessage) := by
  have hidle : s.mode = .idle := by rw [h.message.mode_eq, hm]; rfl
  rw [State.inMessage_of_idle hidle]
  exact h.fail (by decide)

/-- The message checks with a message of another shape open. -/
theorem State.Refines.shapeMismatch (h : s.Refines g) (hm : g.message = m) {accepts : Mode → Bool}
    (hi : m.mode ≠ .idle) (ha : accepts m.mode = false) (body : State → State) :
    (s.inMessage accepts body).Refines (g.reject .shapeMismatch) := by
  subst hm
  rw [← h.message.mode_eq] at hi ha
  rw [State.inMessage_of_mismatch hi ha]
  exact h.fail (by decide)

theorem State.Holds.put16 {σ : Word} {text : List CodeUnit} (h : s.Holds (.string σ text)) (u : CodeUnit) :
    (s.absorb3All (enc16 u)).Holds (.string σ (text ++ [u])) := by
  obtain ⟨hmode, ha⟩ := h
  refine ⟨(absorbAll_frame mh3Block (enc16 u) s).mode.trans hmode, ?_⟩
  simpa [encString, absorb3All_eq] using ha.absorbAll mh3Block (enc16 u)

theorem State.Holds.put32 {σ : Word} {values : List Word} (h : s.Holds (.array σ values)) (v : Word) :
    (s.absorb3All (enc32 v)).Holds (.array σ (values ++ [v])) := by
  obtain ⟨hmode, ha⟩ := h
  refine ⟨(absorbAll_frame mh3Block (enc32 v) s).mode.trans hmode, ?_⟩
  simpa [encInt32s, absorb3All_eq] using ha.absorbAll mh3Block (enc32 v)

theorem State.Holds.putChar {σ n : Word} {text : List CodeUnit} (h : s.Holds (.chars σ n text))
    (hlen : text.length ≠ n.toNat) (c : CodeUnit) :
    (s.absorb2 (charByte c)).Holds (.chars σ n (text ++ [c])) := by
  obtain ⟨hmode, hn, hle, ha⟩ := h
  refine ⟨(absorb_mode ..).trans hmode, (absorb_declen ..).trans hn, ?_, ?_⟩
  · simp only [List.length_append, List.length_singleton]; omega
  · simpa [absorb2] using ha.absorb mh2Block (charByte c)

/-- COUNT cannot wrap below the declared length, so the length checks of H2PUT and H2FINAL compare the text itself. -/
theorem State.Holds.count_eq_declen_iff {σ n : Word} {text : List CodeUnit} (h : s.Holds (.chars σ n text)) :
    s.count = s.declen ↔ text.length = n.toNat := by
  obtain ⟨-, hn, hle, ha⟩ := h
  have hlt : text.length < 2 ^ 32 := hle.trans_lt n.isLt
  rw [ha.count, hn, List.length_map, ← BitVec.toNat_inj, BitVec.toNat_ofNat, Nat.mod_eq_of_lt hlt]

theorem seedOperand_toNat (σ : Word) : seedOperand σ.toNat = σ := by simp [seedOperand]

theorem hash3Value_of_holds_string {σ : Word} {text : List CodeUnit} (h : s.Holds (.string σ text)) :
    s.hash3Value = hash3ForString text σ.toNat := by
  rw [hash3ForString, seedOperand_toNat, hash3Value_of_absorbed h.2]

theorem hash3Value_of_holds_array {σ : Word} {values : List Word} (h : s.Holds (.array σ values)) :
    s.hash3Value = hash3ForInt32Array values σ.toNat := by
  rw [hash3ForInt32Array, seedOperand_toNat, hash3Value_of_absorbed h.2]

/-- With all declared characters put, the declared length the accumulator started from is the text's own. -/
theorem hash2Value_of_holds_chars {σ n : Word} {text : List CodeUnit} (h : s.Holds (.chars σ n text))
    (hlen : text.length = n.toNat) : s.hash2Value = hash2 text σ := by
  obtain ⟨-, -, -, ha⟩ := h
  have hn : lengthOperand text.length = n := by simp [lengthOperand, hlen]
  rw [hash2Value_of_absorbed ha, hash2, hn, mh2Seed]

/-! The commands that look at the open message, by its shape. -/

theorem State.Refines.h3put16 (h : s.Refines g) (u : CodeUnit) (he : exec (.h3put16 u) s = .next t) :
    t.Refines (g.command (.h3put16 u)) := by
  have hold := h.message
  simp only [Session.command]
  cases hm : g.message with rw [hm] at hold
  | none => cases he; exact h.noMessage hm _ _
  | string =>
    cases (exec_h3put16 u hold.1).symm.trans he
    exact h.feed (absorbAll_frame mh3Block (enc16 u) s) (hold.put16 u)
  | array => cases he; exact h.shapeMismatch hm nofun rfl _
  | chars => cases he; exact h.shapeMismatch hm nofun rfl _

theorem State.Refines.h3put32 (h : s.Refines g) (v : Word) (he : exec (.h3put32 v) s = .next t) :
    t.Refines (g.command (.h3put32 v)) := by
  have hold := h.message
  simp only [Session.command]
  cases hm : g.message with rw [hm] at hold
  | none => cases he; exact h.noMessage hm _ _
  | string => cases he; exact h.shapeMismatch hm nofun rfl _
  | array =>
    cases (exec_h3put32 v hold.1).symm.trans he
    exact h.feed (absorbAll_frame mh3Block (enc32 v) s) (hold.put32 v)
  | chars => cases he; exact h.shapeMismatch hm nofun rfl _

theorem State.Refines.h3final (h : s.Refines g) (he : exec .h3final s = .next t) :
    t.Refines (g.command .h3final) := by
  have hold := h.message
  simp only [Session.command]
  cases hm : g.message with rw [hm] at hold
  | none => cases he; exact h.noMessage hm _ _
  | string =>
    cases (exec_h3final (.inl hold.1)).symm.trans he
    rw [hash3Value_of_holds_string hold]
    exact h.closeWith _
  | array =>
    cases (exec_h3final (.inr hold.1)).symm.trans he
    rw [hash3Value_of_holds_array hold]
    exact h.closeWith _
  | chars => cases he; exact h.shapeMismatch hm nofun rfl _

theorem State.Refines.h2put (h : s.Refines g) (c : CodeUnit) (he : exec (.h2put c) s = .next t) :
    t.Refines (g.command (.h2put c)) := by
  have hold := h.message
  simp only [Session.command]
  cases hm : g.message with rw [hm] at hold
  | none => cases he; exact h.noMessage hm _ _
  | string => cases he; exact h.shapeMismatch hm nofun rfl _
  | array => cases he; exact h.shapeMismatch hm nofun rfl _
  | chars =>
    cases (exec_h2put c hold.1).symm.trans he
    simp only [hold.count_eq_declen_iff]
    split
    · exact h.fail (by decide)
    · next hlen => exact h.feed (absorbAll_frame mh2Block [charByte c] s) (hold.putChar hlen c)

theorem State.Refines.h2final (h : s.Refines g) (he : exec .h2final s = .next t) :
    t.Refines (g.command .h2final) := by
  have hold := h.message
  simp only [Session.command]
  cases hm : g.message with rw [hm] at hold
  | none => cases he; exact h.noMessage hm _ _
  | string => cases he; exact h.shapeMismatch hm nofun rfl _
  | array => cases he; exact h.shapeMismatch hm nofun rfl _
  | chars =>
    cases (exec_h2final hold.1).symm.trans he
    simp only [ne_eq, hold.count_eq_declen_iff, ite_not]
    split
    · next hlen =>
      rw [hash2Value_of_holds_chars hold hlen]
      exact h.closeWith _
    · exact h.fail (by decide)

/-- Every command of the engine is the message machine's command. -/
theorem State.Refines.command (h : s.Refines g) {i : Instr} (he : exec i s = .next t) : t.Refines (g.command i) := by
  cases i with
  | setseed a => cases he; exact h.setseed a
  | h3initS => cases he; exact h.openSeeded ⟨rfl, openMessage_absorbed ..⟩
  | h3initA => cases he; exact h.openSeeded ⟨rfl, openMessage_absorbed ..⟩
  | h2init n => cases he; exact h.openSeeded ⟨rfl, rfl, Nat.zero_le _, openMessage_absorbed ..⟩
  | h3put16 u => exact h.h3put16 u he
  | h3put32 v => exact h.h3put32 v he
  | h3final => exact h.h3final he
  | h2put c => exact h.h2put c he
  | h2final => exact h.h2final he

/-- A command word is the command it decodes to, or its decode error (R64). -/
theorem State.Refines.takeCommand (h : s.Refines g) (hr : s.resetLine = false) {w : CommandWord}
    (he : takeCommand w s = .next t) : t.Refines (g.action s.resetLine (.command w)) := by
  simp only [Session.action, hr, Bool.false_eq_true, if_false]
  unfold Machine.takeCommand at he
  cases hd : decode w with rw [hd] at he
  | ok i => exact h.command he
  | illegalOpcode => cases he; exact h.fail (by decide)
  | reservedBits => cases he; exact h.fail (by decide)

/-- Asserting reset forgets everything (R35, R230). -/
theorem State.assertReset_refines (s : State) : s.assertReset.Refines Session.fresh :=
  ⟨rfl, rfl, rfl, rfl, by simp⟩

/-- Every action of the host at the engine is the message machine's action. -/
theorem State.Refines.takeAction (h : s.Refines g) {a : HostAction} (he : takeAction a s = .next t) :
    t.Refines (g.action s.resetLine a) := by
  cases a with
  | command w =>
    cases hr : s.resetLine
    · rw [takeAction_command w hr] at he
      exact hr ▸ h.takeCommand hr he
    · simp only [Machine.takeAction, hr, if_true] at he
      cases he
      exact h
  | read ra => cases he; exact h.withBoundary s.resetLine s.inputs ((ra, s.readPort ra) :: s.reads)
  | assertReset => cases he; exact s.assertReset_refines
  | releaseReset => cases he; exact h.withBoundary false s.inputs s.reads

end Refinement

/-- Settles O38: one step takes one action, and each action keeps the refinement. -/
theorem stepsRefineTheMessageMachine : Obligations.StepsRefineTheMessageMachine := by
  unfold Obligations.StepsRefineTheMessageMachine
  intro s t g a rest h hin he
  rw [step_of_cons hin] at he
  exact (h.withBoundary s.resetLine rest s.reads).takeAction he

/-! ## What the machine remembers of earlier messages (spec/00_scope.md R17)

A command acts on a state as on its view, in which an old RESULT and the boundary's own fields are blank; and the view
right after a successful init command depends on the seed alone. -/

section Noninterference

variable {s t s₁ s₂ t₁ t₂ : State} {i : Instr}

/-- The state without the boundary's own fields, and without RESULT unless DONE says that it stands. -/
def State.view (s : State) : State :=
  { s with result := if s.done then s.result else 0#32, resetLine := false, inputs := [], reads := [] }

theorem State.status_view (s : State) : s.view.status = s.status := rfl

theorem State.h_view (s : State) : s.view.h = s.h := rfl

theorem State.done_view (s : State) : s.view.done = s.done := rfl

theorem State.result_view (h : s.done = true) : s.view.result = s.result := if_pos h

theorem State.view_openSeeded_view (s : State) (m : Mode) (h0 n : Word) :
    (s.view.openSeeded m h0 n).view = (s.openSeeded m h0 n).view := by
  rcases s.openSeeded_cases m h0 n with ⟨hv, he⟩ | ⟨hv, he⟩ <;> rw [he]
  · rw [openSeeded_of_valid (s := s.view) hv]; rfl
  · rw [openSeeded_of_invalid (s := s.view) hv]; rfl

/-- Absorbing looks at TAILCNT alone to choose its branch, and both branches keep DONE and RESULT (R132, R159). -/
theorem State.view_absorb (s : State) (block : Word → Word → Word) (b : Byte) :
    (s.absorb block b).view = s.view.absorb block b :=
  apply_ite State.view (s.tailcnt.toNat < Config.tailBytes) _ _

theorem State.view_absorb3All (s : State) (bytes : List Byte) :
    (s.absorb3All bytes).view = s.view.absorb3All bytes := by
  induction bytes generalizing s with
  | nil => rfl
  | cons b bs ih => exact (ih (s.absorb3 b)).trans (congrArg (·.absorb3All bs) (s.view_absorb mh3Block b))

theorem State.view_view (s : State) : s.view.view = s.view := by
  cases hd : s.done <;> simp [view, hd]

theorem State.view_absorb_view (s : State) (block : Word → Word → Word) (b : Byte) :
    (s.view.absorb block b).view = (s.absorb block b).view := by
  rw [view_absorb, view_view, view_absorb]

theorem State.view_absorb3All_view (s : State) (bytes : List Byte) :
    (s.view.absorb3All bytes).view = (s.absorb3All bytes).view := by
  rw [view_absorb3All, view_view, view_absorb3All]

theorem State.view_inMessage_view (s : State) (accepts : Mode → Bool) {body : State → State}
    (hb : (body s.view).view = (body s).view) :
    (s.view.inMessage accepts body).view = (s.inMessage accepts body).view := by
  rcases s.inMessage_cases accepts body with ⟨hi, he⟩ | ⟨hi, ha, he⟩ | ⟨hi, ha, he⟩ <;> rw [he]
  · rw [inMessage_of_idle (s := s.view) hi]; rfl
  · rw [inMessage_of_mismatch (s := s.view) hi ha]; rfl
  · rw [inMessage_of_accepted (s := s.view) hi ha, hb]

/-- A command acts on a state as on its view. -/
theorem exec_view (h₁ : exec i s.view = .next t₁) (h₂ : exec i s = .next t₂) : t₁.view = t₂.view := by
  cases i with
  | setseed a => cases h₁; cases h₂; exact State.view_view { s with seed := a, seedValid := true }
  | h3initS => cases h₁; cases h₂; exact s.view_openSeeded_view _ _ _
  | h3initA => cases h₁; cases h₂; exact s.view_openSeeded_view _ _ _
  | h2init n => cases h₁; cases h₂; exact s.view_openSeeded_view _ _ _
  | h3put16 u => cases h₁; cases h₂; exact s.view_inMessage_view _ (s.view_absorb3All_view _)
  | h3put32 v => cases h₁; cases h₂; exact s.view_inMessage_view _ (s.view_absorb3All_view _)
  | h3final => cases h₁; cases h₂; exact s.view_inMessage_view _ rfl
  | h2put c =>
    cases h₁; cases h₂
    refine s.view_inMessage_view _ ?_
    show State.view (if s.count = s.declen then _ else _) = _
    split
    · rfl
    · exact s.view_absorb_view _ _
  | h2final =>
    cases h₁; cases h₂
    refine s.view_inMessage_view _ ?_
    show State.view (if s.count ≠ s.declen then _ else _) = _
    split <;> rfl

/-- So states of one view stay so under the same commands. -/
theorem execAll_view_eq {cmds : List Instr} (hv : s₁.view = s₂.view) (h₁ : execAll cmds s₁ = .next t₁)
    (h₂ : execAll cmds s₂ = .next t₂) : t₁.view = t₂.view := by
  induction cmds generalizing s₁ s₂ with
  | nil => cases h₁; cases h₂; exact hv
  | cons i is ih =>
    obtain ⟨u₁, hu₁⟩ := exec_next i s₁
    obtain ⟨u₂, hu₂⟩ := exec_next i s₂
    obtain ⟨u, hu⟩ := exec_next i s₁.view
    rw [execAll_cons hu₁] at h₁
    rw [execAll_cons hu₂] at h₂
    refine ih ?_ h₁ h₂
    calc u₁.view = u.view := (exec_view hu hu₁).symm
      _ = u₂.view := exec_view (hv ▸ hu) hu₂

/-- Opening a message blanks everything but the seed. -/
theorem State.view_openMessage_eq (hv : s₁.seedValid = s₂.seedValid) (hs : s₁.seed = s₂.seed) (m : Mode)
    (h0 n : Word) : (s₁.openMessage m h0 n).view = (s₂.openMessage m h0 n).view := by
  simp [view, openMessage, clearError, hv, hs]

/-- The view after a successful init command depends on the seed alone. -/
theorem exec_init_view_eq (hi : isInit i = true) (hv₁ : s₁.seedValid = true) (hv₂ : s₂.seedValid = true)
    (hs : s₁.seed = s₂.seed) (h₁ : exec i s₁ = .next t₁) (h₂ : exec i s₂ = .next t₂) : t₁.view = t₂.view := by
  have opened (m : Mode) (h0 n : Word) : (s₁.openSeeded m h0 n).view = (s₂.openSeeded m h0 n).view := by
    rw [State.openSeeded_of_valid hv₁, State.openSeeded_of_valid hv₂]
    exact State.view_openMessage_eq (hv₁.trans hv₂.symm) hs m h0 n
  cases i with
  | h3initS => cases h₁; cases h₂; rw [hs]; exact opened _ _ _
  | h3initA => cases h₁; cases h₂; rw [hs]; exact opened _ _ _
  | h2init n => cases h₁; cases h₂; rw [hs]; exact opened _ _ _
  | _ => cases hi

end Noninterference

/-- Settles O45: the init command makes the views equal, and every command keeps them so. -/
theorem resultForgetsEarlierMessages : Obligations.ResultForgetsEarlierMessages := by
  unfold Obligations.ResultForgetsEarlierMessages
  intro s₁ s₂ t₁ t₂ init cmds hi hv₁ hv₂ hs h₁ h₂
  obtain ⟨u₁, hu₁⟩ := exec_next init s₁
  obtain ⟨u₂, hu₂⟩ := exec_next init s₂
  rw [execAll_cons hu₁] at h₁
  rw [execAll_cons hu₂] at h₂
  have hview : t₁.view = t₂.view := execAll_view_eq (exec_init_view_eq hi hv₁ hv₂ hs hu₁ hu₂) h₁ h₂
  have hdone : t₁.done = t₂.done := by rw [← t₁.done_view, hview, t₂.done_view]
  refine ⟨?_, ?_, fun hd => ?_⟩
  · rw [← t₁.status_view, hview, t₂.status_view]
  · rw [← t₁.h_view, hview, t₂.h_view]
  · rw [← State.result_view hd, hview, State.result_view (hdone ▸ hd)]

end Sys2Proof.Machine

namespace Sys2Proof.Machine

/-! ## What a command and a step do to the registers (spec/10_state.md)

The commands by kind, and a step by what reaches the registers: each rule about who writes a register is a case split
over these. -/

section Registers

variable {s t : State} {i : Instr}

/-- The bytes a put command feeds: the encoder's output (R135, R136) or the character byte (R161). -/
def fedBytes : Instr → List Byte
  | .h2put c => [charByte c]
  | i => keyBytes i

/-- A command fails, loads the seed, opens a message, feeds the open message or closes it with a hash. -/
theorem exec_kinds (h : exec i s = .next t) :
    FailedTo s t
      ∨ (∃ a, i = .setseed a ∧ t = { s with seed := a, seedValid := true })
      ∨ (isInit i = true ∧ s.seedValid = true ∧ ∃ m h0 n, t = s.openMessage m h0 n)
      ∨ (isPut i = true ∧ s.mode ≠ .idle ∧ ∃ block, t = (fedBytes i).foldl (fun s b => s.absorb block b) s)
      ∨ (isFinal i = true ∧ s.mode ≠ .idle ∧ ∃ x, t = s.closeWith x) := by
  rcases exec_cases h with hf | ⟨a, rfl, rfl⟩ | ⟨rfl, hv, rfl⟩ | ⟨rfl, hv, rfl⟩ | ⟨n, rfl, hv, rfl⟩
    | ⟨u, rfl, hm, rfl⟩ | ⟨v, rfl, hm, rfl⟩ | ⟨c, rfl, hm, -, rfl⟩ | ⟨rfl, hm, rfl⟩ | ⟨rfl, hm, -, rfl⟩
  · exact .inl hf
  · exact .inr (.inl ⟨a, rfl, rfl⟩)
  · exact .inr (.inr (.inl ⟨rfl, hv, _, _, _, rfl⟩))
  · exact .inr (.inr (.inl ⟨rfl, hv, _, _, _, rfl⟩))
  · exact .inr (.inr (.inl ⟨rfl, hv, _, _, _, rfl⟩))
  · exact .inr (.inr (.inr (.inl ⟨rfl, by simp [hm], mh3Block, rfl⟩)))
  · exact .inr (.inr (.inr (.inl ⟨rfl, by simp [hm], mh3Block, rfl⟩)))
  · exact .inr (.inr (.inr (.inl ⟨rfl, by simp [hm], mh2Block, rfl⟩)))
  · exact .inr (.inr (.inr (.inr ⟨rfl, by rcases hm with hm | hm <;> simp [hm], _, rfl⟩)))
  · exact .inr (.inr (.inr (.inr ⟨rfl, by simp [hm], _, rfl⟩)))

/-- A step leaves the registers, fails on a word that does not decode, executes a command, or resets. -/
theorem step_kinds (h : step s = .next t) :
    (∃ reset inputs reads, t = { s with resetLine := reset, inputs := inputs, reads := reads })
      ∨ (∃ rest, FailedTo { s with inputs := rest } t)
      ∨ (∃ w i rest, s.inputs = .command w :: rest ∧ s.resetLine = false ∧ decode w = .ok i
          ∧ exec i { s with inputs := rest } = .next t)
      ∨ (∃ rest, s.inputs = .assertReset :: rest ∧ t = ({ s with inputs := rest } : State).assertReset) := by
  rcases step_cases h with ⟨-, rfl⟩ | ⟨w, rest, -, -, rfl⟩ | ⟨w, rest, hin, hr, hw⟩ | ⟨ra, rest, -, rfl⟩
    | ⟨rest, hin, rfl⟩ | ⟨rest, -, rfl⟩
  · exact .inl ⟨_, _, _, rfl⟩
  · exact .inl ⟨_, _, _, rfl⟩
  · rcases takeCommand_cases hw with ⟨i, hd, he⟩ | ⟨-, hf⟩
    · exact .inr (.inr (.inl ⟨w, i, rest, hin, hr, hd, he⟩))
    · exact .inr (.inl ⟨rest, hf⟩)
  · exact .inl ⟨_, _, _, rfl⟩
  · exact .inr (.inr (.inr ⟨rest, hin, rfl⟩))
  · exact .inl ⟨_, _, _, rfl⟩

/-- Who writes SEED and SEED_VALID (R20). -/
theorem exec_seed_cases (h : exec i s = .next t) :
    (t.seed = s.seed ∧ t.seedValid = s.seedValid) ∨ ∃ a, i = .setseed a ∧ t.seed = a ∧ t.seedValid = true := by
  rcases exec_kinds h with ⟨c, -, rfl⟩ | ⟨a, rfl, rfl⟩ | ⟨-, -, m, h0, n, rfl⟩ | ⟨-, -, block, rfl⟩ | ⟨-, -, x, rfl⟩
  · exact .inl ⟨rfl, rfl⟩
  · exact .inr ⟨a, rfl, rfl, rfl⟩
  · exact .inl ⟨rfl, rfl⟩
  · have f := absorbAll_frame block (fedBytes i) s
    exact .inl ⟨f.seed, f.seedValid⟩
  · exact .inl ⟨rfl, rfl⟩

/-- Who writes RESULT (R27). -/
theorem exec_result_cases (h : exec i s = .next t) :
    t.result = s.result ∨ (isFinal i = true ∧ s.mode ≠ .idle ∧ t.done = true ∧ t.h = t.result) := by
  rcases exec_kinds h with ⟨c, -, rfl⟩ | ⟨a, -, rfl⟩ | ⟨-, -, m, h0, n, rfl⟩ | ⟨-, -, block, rfl⟩ | ⟨hi, hm, x, rfl⟩
  · exact .inl rfl
  · exact .inl rfl
  · exact .inl rfl
  · exact .inl (absorbAll_frame block (fedBytes i) s).result
  · exact .inr ⟨hi, hm, rfl, rfl⟩

/-- Who writes COUNT and DECLEN (R24, R26). -/
theorem exec_lengths_cases (h : exec i s = .next t) :
    (t.count = s.count ∧ t.declen = s.declen)
      ∨ (isInit i = true ∧ s.seedValid = true ∧ t.count = 0#32)
      ∨ (isPut i = true ∧ s.mode ≠ .idle ∧ t.declen = s.declen
          ∧ t.count = s.count + BitVec.ofNat 32 (fedBytes i).length) := by
  rcases exec_kinds h with ⟨c, -, rfl⟩ | ⟨a, -, rfl⟩ | ⟨hi, hv, m, h0, n, rfl⟩ | ⟨hi, hm, block, rfl⟩ | ⟨-, -, x, rfl⟩
  · exact .inl ⟨rfl, rfl⟩
  · exact .inl ⟨rfl, rfl⟩
  · exact .inr (.inl ⟨hi, hv, rfl⟩)
  · exact .inr (.inr ⟨hi, hm, (absorbAll_frame block (fedBytes i) s).declen, absorbAll_count block (fedBytes i) s⟩)
  · exact .inl ⟨rfl, rfl⟩

/-- An init command without a seed fails with SEED_MISSING (R133, R134, R160). -/
theorem exec_init_without_seed (hi : isInit i = true) (hv : s.seedValid = false) :
    exec i s = .next (s.fail .seedMissing) := by
  cases i with
  | h3initS => exact congrArg Host.Outcome.next (State.openSeeded_of_invalid hv _ _ _)
  | h3initA => exact congrArg Host.Outcome.next (State.openSeeded_of_invalid hv _ _ _)
  | h2init n => exact congrArg Host.Outcome.next (State.openSeeded_of_invalid hv _ _ _)
  | _ => cases hi

end Registers

/-! ## The invariants of R36 -/

section Invariants

variable {s t : State}

/-- The stream's part of R36 (items 1, 4 and 5): TAIL is clear above its bytes, and TAILCNT is COUNT modulo 4. -/
structure State.StreamInv (s : State) : Prop where
  tailClear : s.tail >>> (8 * s.tailcnt.toNat) = 0#24
  countTail : s.count.toNat % 4 = s.tailcnt.toNat

/-- The byte after `j` held ones leaves the window clear above it. -/
theorem putTailByte_clear_above {tail : BitVec 24} {j : Nat} (h : tail >>> (8 * j) = 0#24) (b : Byte) :
    putTailByte tail j b >>> (8 * (j + 1)) = 0#24 := by
  apply BitVec.eq_of_getLsbD_eq
  intro i _
  rw [BitVec.getLsbD_ushiftRight, BitVec.getLsbD_zero]
  by_cases hi : 8 * (j + 1) + i < 24
  · have hclear := congrArg (·.getLsbD (8 + i)) h
    rw [getLsbD_putTailByte _ _ _ _ hi, if_neg (by omega)]
    simpa [BitVec.getLsbD_ushiftRight, Nat.mul_succ, Nat.add_assoc] using hclear
  · exact BitVec.getLsbD_of_ge _ _ (by omega)

theorem State.StreamInv.absorb (h : s.StreamInv) (block : Word → Word → Word) (b : Byte) :
    (s.absorb block b).StreamInv := by
  obtain ⟨htail, hcount⟩ := h
  have hlt := s.tailcnt.isLt
  refine ⟨?_, ?_⟩
  · obtain hlt3 | hfull : s.tailcnt.toNat < 3 ∨ s.tailcnt.toNat = 3 := by omega
    · have hsucc : (s.tailcnt + 1#2).toNat = s.tailcnt.toNat + 1 := by simp; omega
      rw [State.absorb_of_lt block b hlt3, hsucc]
      exact putTailByte_clear_above htail b
    · rw [State.absorb_of_full block b (BitVec.eq_of_toNat_eq hfull)]
      rfl
  · simp only [absorb_count, absorb_tailcnt, BitVec.toNat_add, BitVec.toNat_ofNat]
    omega

theorem State.StreamInv.absorbAll (h : s.StreamInv) (block : Word → Word → Word) (bytes : List Byte) :
    (bytes.foldl (fun s b => s.absorb block b) s).StreamInv := by
  induction bytes generalizing s with
  | nil => exact h
  | cons b bytes ih => exact ih (h.absorb block b)

theorem State.Inv.streamInv (h : s.Inv) (hopen : s.mode ≠ .idle) : s.StreamInv := by
  refine ⟨h.tailClear, ?_⟩
  cases hm : s.mode with
  | idle => exact absurd hm hopen
  | h3s => exact h.h3Count (.inl hm)
  | h3a => exact h.h3Count (.inr hm)
  | h2 => exact (h.h2Count hm).2

/-- The invariants speak neither of the seed nor of the boundary's own fields. -/
theorem State.Inv.withSeedAndBoundary (h : s.Inv) (seed : Word) (valid reset : Bool) (inputs : List HostAction)
    (reads : List (ReadAddr × Word)) :
    ({ s with seed := seed, seedValid := valid, resetLine := reset, inputs := inputs, reads := reads } : State).Inv :=
  ⟨h.tailClear, h.h3aNoTail, h.h3sTail, h.h3Count, h.h2Count, h.doneNoTail, h.errCause, h.doneClean, h.openClean⟩

theorem State.Inv.withBoundary (h : s.Inv) (reset : Bool) (inputs : List HostAction)
    (reads : List (ReadAddr × Word)) :
    ({ s with resetLine := reset, inputs := inputs, reads := reads } : State).Inv :=
  h.withSeedAndBoundary s.seed s.seedValid reset inputs reads

/-- With no message open, only items 1, 6, 7 and 8 say something. -/
theorem State.inv_of_idle (hm : s.mode = .idle) (htail : s.tail >>> (8 * s.tailcnt.toNat) = 0#24)
    (herr : s.err = false ↔ s.cause = .none) (hdone : s.done = true → s.tailcnt = 0#2 ∧ s.err = false) : s.Inv where
  tailClear := htail
  h3aNoTail := by simp [hm]
  h3sTail := by simp [hm]
  h3Count := by simp [hm]
  h2Count := by simp [hm]
  doneNoTail hd := (hdone hd).1
  errCause := herr
  doneClean hd := ⟨(hdone hd).2, hm⟩
  openClean hopen := absurd hm hopen

/-- The error action keeps the first cause, and no cause it sets is NONE (R202). -/
theorem State.Inv.fail (h : s.Inv) {c : Cause} (hc : c ≠ .none) : (s.fail c).Inv := by
  refine inv_of_idle rfl h.tailClear ?_ nofun
  cases he : s.err
  · simp [he, hc]
  · simpa [he] using mt h.errCause.mpr (by simp [he])

theorem State.Inv.failedTo (h : s.Inv) (hf : FailedTo s t) : t.Inv := by
  obtain ⟨c, hc, rfl⟩ := hf
  exact h.fail hc

/-- A message just opened is empty and without an error, whatever was before it. -/
theorem State.openMessage_inv (s : State) (m : Mode) (h0 n : Word) : (s.openMessage m h0 n).Inv where
  tailClear := rfl
  h3aNoTail _ := rfl
  h3sTail _ := .inl rfl
  h3Count _ := rfl
  h2Count _ := ⟨Nat.zero_le _, rfl⟩
  doneNoTail := nofun
  errCause := by simp
  doneClean := nofun
  openClean _ := rfl

/-- Closing an open message clears the window, and the message had no error. -/
theorem State.Inv.closeWith (h : s.Inv) (hopen : s.mode ≠ .idle) (x : Word) : (s.closeWith x).Inv :=
  inv_of_idle rfl rfl h.errCause fun _ => ⟨rfl, h.openClean hopen⟩

/-- Feeding an open message keeps the invariants when the window ends as the message's shape asks. -/
theorem State.Inv.feed (h : s.Inv) (hopen : s.mode ≠ .idle) (f : SameButStream s t) (hst : t.StreamInv)
    (h3a : s.mode = .h3a → t.tailcnt = 0#2) (h3s : s.mode = .h3s → t.tailcnt = 0#2 ∨ t.tailcnt = 2#2)
    (h2 : s.mode = .h2 → t.count.toNat ≤ s.declen.toNat) : t.Inv where
  tailClear := hst.tailClear
  h3aNoTail hm := h3a (f.mode ▸ hm)
  h3sTail hm := h3s (f.mode ▸ hm)
  h3Count _ := hst.countTail
  h2Count hm := ⟨f.declen ▸ h2 (f.mode ▸ hm), hst.countTail⟩
  doneNoTail hd := absurd (h.doneClean (f.done ▸ hd)).2 hopen
  errCause := by rw [f.err, f.cause]; exact h.errCause
  doneClean hd := absurd (h.doneClean (f.done ▸ hd)).2 hopen
  openClean _ := f.err.trans (h.openClean hopen)

/-- A code unit is two bytes, so the window goes from 0 to 2 bytes and back. -/
theorem State.Inv.put16 (h : s.Inv) (hm : s.mode = .h3s) (u : CodeUnit) : (s.absorb3All (enc16 u)).Inv := by
  have hopen : s.mode ≠ .idle := by simp [hm]
  have hcnt : (s.absorb3All (enc16 u)).tailcnt = s.tailcnt + 2#2 := absorbAll_tailcnt mh3Block (enc16 u) s
  refine h.feed hopen (absorbAll_frame ..) ((h.streamInv hopen).absorbAll ..)
    (by simp [hm]) (fun _ => ?_) (by simp [hm])
  rw [hcnt]
  rcases h.h3sTail hm with h0 | h2
  · exact .inr (by rw [h0]; rfl)
  · exact .inl (by rw [h2]; rfl)

/-- A 32-bit integer is a whole block. -/
theorem State.Inv.put32 (h : s.Inv) (hm : s.mode = .h3a) (v : Word) : (s.absorb3All (enc32 v)).Inv := by
  have hopen : s.mode ≠ .idle := by simp [hm]
  have hcnt : (s.absorb3All (enc32 v)).tailcnt = s.tailcnt + 4#2 := absorbAll_tailcnt mh3Block (enc32 v) s
  refine h.feed hopen (absorbAll_frame ..) ((h.streamInv hopen).absorbAll ..)
    (fun _ => ?_) (by simp [hm]) (by simp [hm])
  rw [hcnt, h.h3aNoTail hm]
  rfl

/-- H2PUT stops at DECLEN, so COUNT stays at most DECLEN and does not wrap. -/
theorem State.Inv.putChar (h : s.Inv) (hm : s.mode = .h2) (hc : s.count ≠ s.declen) (b : Byte) :
    (s.absorb2 b).Inv := by
  have hopen : s.mode ≠ .idle := by simp [hm]
  refine h.feed hopen (absorbAll_frame mh2Block [b] s) ((h.streamInv hopen).absorb ..) (by simp [hm]) (by simp [hm])
    fun _ => ?_
  have hne : s.count.toNat ≠ s.declen.toNat := mt BitVec.eq_of_toNat_eq hc
  have hle := (h.h2Count hm).1
  have hlt := s.declen.isLt
  simp only [absorb2, absorb_count, BitVec.toNat_add, BitVec.toNat_ofNat]
  omega

/-- Every command keeps the invariants. -/
theorem State.Inv.command (h : s.Inv) {i : Instr} (he : exec i s = .next t) : t.Inv := by
  rcases exec_cases he with hf | ⟨a, -, rfl⟩ | ⟨-, -, rfl⟩ | ⟨-, -, rfl⟩ | ⟨n, -, -, rfl⟩
    | ⟨u, -, hm, rfl⟩ | ⟨v, -, hm, rfl⟩ | ⟨c, -, hm, hc, rfl⟩ | ⟨-, hm, rfl⟩ | ⟨-, hm, -, rfl⟩
  · exact h.failedTo hf
  · exact h.withSeedAndBoundary a true s.resetLine s.inputs s.reads
  · exact s.openMessage_inv ..
  · exact s.openMessage_inv ..
  · exact s.openMessage_inv ..
  · exact h.put16 hm u
  · exact h.put32 hm v
  · exact h.putChar hm hc _
  · exact h.closeWith (by rcases hm with hm | hm <;> simp [hm]) _
  · exact h.closeWith (by simp [hm]) _

theorem State.reset_inv : State.reset.Inv := inv_of_idle rfl rfl (by decide) nofun

theorem State.assertReset_inv (s : State) : s.assertReset.Inv := reset_inv.withBoundary true s.inputs s.reads

theorem State.reset_seedInv : State.reset.SeedInv := ⟨fun hm => absurd rfl hm, nofun, nofun⟩

/-- At reset the engine realises the message machine that has been given nothing (R35). -/
theorem State.reset_refines : State.reset.Refines Session.fresh :=
  State.reset.assertReset_refines.withBoundary false [] []

end Invariants

/-- Settles O36: a step leaves the registers, fails, executes a command or resets, and each keeps the invariants. -/
theorem stepsKeepTheInvariants : Obligations.StepsKeepTheInvariants := by
  unfold Obligations.StepsKeepTheInvariants
  intro s t h hs
  have hrest (rest : List HostAction) : ({ s with inputs := rest } : State).Inv :=
    h.withBoundary s.resetLine rest s.reads
  rcases step_kinds hs with ⟨reset, inputs, reads, rfl⟩ | ⟨rest, hf⟩ | ⟨w, i, rest, -, -, -, he⟩ | ⟨rest, -, rfl⟩
  · exact h.withBoundary reset inputs reads
  · exact (hrest rest).failedTo hf
  · exact (hrest rest).command he
  · exact State.assertReset_inv _

/-! ## STATUS (R30) -/

/-- A field of a word is known by its bits. -/
theorem extractLsb'_eq_of_getLsbD {n start len : Nat} {x : BitVec n} {v : BitVec len}
    (h : ∀ i, i < len → x.getLsbD (start + i) = v.getLsbD i) : x.extractLsb' start len = v :=
  BitVec.eq_of_getLsbD_eq fun i hi => by simpa [BitVec.getLsbD_extractLsb', hi] using h i hi

/-- STATUS bit by bit. -/
theorem State.getLsbD_status (s : State) (i : Nat) :
    s.status.getLsbD i =
      if i < 2 then s.mode.code.getLsbD i
      else if i = 2 then s.done
      else if i = 3 then s.err
      else if i < 7 then s.cause.code.getLsbD (i - 4)
      else if i = 7 then s.seedValid
      else s.tailcnt.getLsbD (i - 8) := by
  simp only [status, BitVec.getLsbD_setWidth, BitVec.getLsbD_append, BitVec.getLsbD_ofBool, Nat.sub_sub]
  obtain h | h | h : i < 4 ∨ (4 ≤ i ∧ i < 8) ∨ 8 ≤ i := by omega
  · obtain h2 | rfl | rfl : i < 2 ∨ i = 2 ∨ i = 3 := by omega
    · simp [h2, show i < 32 by omega]
    · simp
    · simp
  · obtain h7 | rfl : i < 7 ∨ i = 7 := by omega
    · simp (disch := omega) [if_neg, if_pos, h7, show i < 32 by omega]
    · simp
  · by_cases hi : i < 32
    · simp (disch := omega) [if_neg, hi]
    · simp (disch := omega) [if_neg, hi, BitVec.getLsbD_of_ge]

/-- Settles O31: each field of STATUS is read off its bits. -/
theorem statusShowsTheControlState : Obligations.StatusShowsTheControlState := by
  unfold Obligations.StatusShowsTheControlState
  intro s
  refine ⟨extractLsb'_eq_of_getLsbD fun i hi => ?_, s.getLsbD_status 2, s.getLsbD_status 3,
    extractLsb'_eq_of_getLsbD fun i hi => ?_, s.getLsbD_status 7, extractLsb'_eq_of_getLsbD fun i hi => ?_,
    extractLsb'_eq_of_getLsbD fun i hi => ?_, rfl⟩
  · simp (disch := omega) only [s.getLsbD_status, Nat.zero_add, if_pos]
  · simp (disch := omega) only [s.getLsbD_status, if_neg, if_pos, Nat.add_sub_cancel_left]
  · simp (disch := omega) only [s.getLsbD_status, if_neg, Nat.add_sub_cancel_left]
  · simp (disch := omega) only [s.getLsbD_status, if_neg, BitVec.getLsbD_of_ge, BitVec.getLsbD_zero]

/-! ## Who writes the seed, the result and the lengths -/

/-- Settles O32: of all steps only a SETSEED and the assertion of reset reach SEED and SEED_VALID. -/
theorem onlySetseedWritesTheSeed : Obligations.OnlySetseedWritesTheSeed := by
  unfold Obligations.OnlySetseedWritesTheSeed
  refine ⟨fun s t hs => ?_, fun i s => exec_init_without_seed⟩
  rcases step_kinds hs with ⟨reset, inputs, reads, rfl⟩ | ⟨rest, c, -, rfl⟩ | ⟨w, i, rest, hin, hr, hd, he⟩
    | ⟨rest, hin, rfl⟩
  · exact .inl ⟨rfl, rfl⟩
  · exact .inl ⟨rfl, rfl⟩
  · rcases exec_seed_cases he with hkept | ⟨a, rfl, hseed, hvalid⟩
    · exact .inl hkept
    · exact .inr (.inl ⟨w, a, rest, hin, hr, hd, hseed, hvalid⟩)
  · exact .inr (.inr ⟨rest, hin, rfl, rfl⟩)

/-- Settles O33: of all steps only the closing of an open message and the assertion of reset reach RESULT. -/
theorem onlyFinalsWriteTheResult : Obligations.OnlyFinalsWriteTheResult := by
  unfold Obligations.OnlyFinalsWriteTheResult
  intro s t hs
  rcases step_kinds hs with ⟨reset, inputs, reads, rfl⟩ | ⟨rest, c, -, rfl⟩ | ⟨w, i, rest, hin, hr, hd, he⟩
    | ⟨rest, hin, rfl⟩
  · exact .inl rfl
  · exact .inl rfl
  · rcases exec_result_cases he with hkept | hfinal
    · exact .inl hkept
    · exact .inr (.inl ⟨w, i, rest, hin, hr, hd, hfinal⟩)
  · exact .inr (.inr ⟨rest, hin, rfl⟩)

/-- Settles O34: opening a message clears COUNT, feeding it adds the bytes fed, and reset clears both lengths. -/
theorem onlyInitsAndPutsWriteTheLengths : Obligations.OnlyInitsAndPutsWriteTheLengths := by
  unfold Obligations.OnlyInitsAndPutsWriteTheLengths
  intro s t hs
  rcases step_kinds hs with ⟨reset, inputs, reads, rfl⟩ | ⟨rest, c, -, rfl⟩ | ⟨w, i, rest, hin, hr, hd, he⟩
    | ⟨rest, hin, rfl⟩
  · exact .inl ⟨rfl, rfl⟩
  · exact .inl ⟨rfl, rfl⟩
  · rcases exec_lengths_cases he with hkept | hinit | ⟨hput, hopen, hdeclen, hcount⟩
    · exact .inl hkept
    · exact .inr (.inl ⟨w, i, rest, hin, hr, hd, .inl hinit⟩)
    · refine .inr (.inl ⟨w, i, rest, hin, hr, hd, .inr ⟨hput, hopen, hdeclen, ?_⟩⟩)
      rw [hcount]
      cases i <;> rfl
  · exact .inr (.inr ⟨rest, hin, rfl, rfl⟩)

/-! ## The reset state (R35) -/

/-- Settles O1: the values of R35's table, register by register. -/
theorem resetLeavesTheResetTable : Obligations.ResetLeavesTheResetTable := by
  unfold Obligations.ResetLeavesTheResetTable
  exact ⟨rfl, rfl, rfl, rfl, rfl, rfl, rfl, rfl, rfl, rfl, rfl, rfl⟩

/-- Settles O35, one invariant after the other; the reset input is released in the reset state. -/
theorem resetMeetsTheInvariants : Obligations.ResetMeetsTheInvariants := by
  unfold Obligations.ResetMeetsTheInvariants
  exact ⟨State.reset_inv, State.reset_seedInv, nofun, State.reset_refines⟩

end Sys2Proof.Machine

namespace Sys2Proof.Machine

/-! ## A step with a command word waiting (R47, R50, R64) -/

section Commands
variable {s : State} {w : CommandWord} {i : Instr} {rest : List HostAction}

theorem takeCommand_of_ok (h : decode w = .ok i) : takeCommand w s = exec i s := by simp [takeCommand, h]

theorem takeCommand_of_illegalOpcode (h : decode w = .illegalOpcode) :
    takeCommand w s = .next (s.fail .illegalOpcode) := by simp [takeCommand, h]

theorem takeCommand_of_reservedBits (h : decode w = .reservedBits) :
    takeCommand w s = .next (s.fail .reservedBits) := by simp [takeCommand, h]

/-- With the reset input released a waiting command word is taken off the list and executed. -/
theorem step_of_command (hin : s.inputs = .command w :: rest) (hr : s.resetLine = false) :
    step s = takeCommand w { s with inputs := rest } :=
  (step_of_cons hin).trans (takeAction_command w hr)

theorem step_of_nil (h : s.inputs = []) : step s = .next s := by simp [step, waitForHost, h]

end Commands

/-- Settles O27: a waiting command word goes to `takeCommand`, whose branches are the decoder's three answers; a release
of reset goes to `releaseReset`. -/
theorem stepRunsTheDecodedCommand : Obligations.StepRunsTheDecodedCommand := by
  unfold Obligations.StepRunsTheDecodedCommand
  refine ⟨fun s w i rest hin hr hd => ?decoded, fun s w rest hin hr hd => ?illegal,
    fun s w rest hin hr hd => ?reserved, fun s rest hin => ?release, fun s => step_of_nil⟩
  case decoded => rw [step_of_command hin hr, takeCommand_of_ok hd]
  case illegal => rw [step_of_command hin hr, takeCommand_of_illegalOpcode hd]
  case reserved => rw [step_of_command hin hr, takeCommand_of_reservedBits hd]
  case release => exact step_of_cons hin

end Sys2Proof.Machine

namespace Sys2Proof

/-! ## The decoder and the encoder (spec/30_encoding.md R60 to R68) -/

/-- The family `EncodedFields`, put together over the constructors. -/
theorem Laws.EncodedFields.holds (i : Instr) : Laws.EncodedFields.Statement i := by
  cases i with
  | setseed seed => exact setseed seed
  | h3initS => exact h3initS
  | h3initA => exact h3initA
  | h3put16 unit => exact h3put16 unit
  | h3put32 value => exact h3put32 value
  | h3final => exact h3final
  | h2init length => exact h2init length
  | h2put char => exact h2put char
  | h2final => exact h2final

section Decoder

variable {w : CommandWord} {k : Opcode} {a : Word} {i : Instr}

/-- A word built from an opcode and an operand its class accepts decodes to that command. -/
theorem decode_of_parts (h : k.operandClass.accepts a = true) :
    decode ((k.code.setWidth 64 <<< 56) ||| a.setWidth 64) = .ok (k.withOperand a) := by
  rw [decode_ok_iff]
  refine ⟨k, ?_, rsvField_of_parts _ _, ?_, ?_⟩
  · rw [opField_of_parts, opcodeOf?_code]
  · rw [aField_of_parts, h]
  · rw [aField_of_parts]

theorem decode_encode (i : Instr) : decode (encode i) = .ok i := by
  obtain ⟨haccepts, -, hwith⟩ := Laws.EncodedFields.holds i
  exact (decode_of_parts haccepts).trans (congrArg Decoded.ok hwith)

theorem encode_of_decode_ok (h : decode w = .ok i) : encode i = w := by
  obtain ⟨k, hk, hr, ha, rfl⟩ := decode_ok_iff.mp h
  apply word_eq_of_fields
  · rw [opField_encode, opcode_withOperand, code_of_opcodeOf? hk]
  · rw [rsvField_encode, hr]
  · rw [aField_encode, operand_withOperand ha]

/-- R64 step 1 fails. -/
theorem decode_of_unassigned (h : opcodeOf? (opField w) = none) : decode w = .illegalOpcode := by
  simp [decode, h]

/-- R64 step 2 or step 3 fails. -/
theorem decode_of_refused (hk : opcodeOf? (opField w) = some k)
    (h : rsvField w = 0#24 → k.operandClass.accepts (aField w) = false) : decode w = .reservedBits := by
  by_cases hr : rsvField w = 0#24
  · simp [decode, hk, hr, h hr]
  · simp [decode, hk, hr]

/-- The must-be-zero bits of class U are bits [31:16] of the word. -/
theorem aField_high (w : CommandWord) : (aField w).extractLsb' 16 16 = w.extractLsb' 16 16 :=
  BitVec.extractLsb'_extractLsb'_of_le (by decide)

/-! The match and mask table, field by field (R63). -/

/-- The bits of A that a class wants to be 0, as a mask (R61). -/
def OperandClass.mustBeZero : OperandClass → Word
  | .z => BitVec.allOnes 32
  | .u => 0xFFFF0000#32
  | .w => 0#32

/-- The mask of class U selects A[31:16]. -/
theorem and_high_eq_zero_iff : a &&& 0xFFFF0000#32 = 0#32 ↔ a.extractLsb' 16 16 = 0#16 := by
  have halves : a.extractLsb' 16 16 ++ a.extractLsb' 0 16 = a :=
    (BitVec.extractLsb'_append_extractLsb'_eq_extractLsb' rfl).trans BitVec.extractLsb'_eq_self
  have hmasked : a &&& 0xFFFF0000#32 = a.extractLsb' 16 16 ++ 0#16 :=
    calc a &&& 0xFFFF0000#32
      _ = (a.extractLsb' 16 16 ++ a.extractLsb' 0 16) &&& (BitVec.allOnes 16 ++ 0#16) := by rw [halves]; rfl
      _ = a.extractLsb' 16 16 ++ 0#16 := by rw [BitVec.and_append, BitVec.and_allOnes, BitVec.and_zero]
  rw [hmasked, show 0#32 = 0#16 ++ 0#16 from rfl, BitVec.append_left_inj]

theorem OperandClass.accepts_iff (c : OperandClass) : c.accepts a = true ↔ a &&& c.mustBeZero = 0#32 := by
  cases c with
  | z => rw [accepts, mustBeZero, BitVec.and_allOnes, beq_iff_eq]
  | u => rw [accepts, mustBeZero, and_high_eq_zero_iff, beq_iff_eq]
  | w => simp [accepts, mustBeZero]

/-- A row's pattern is its opcode with RSV and A zero; its mask selects OP and the must-be-zero bits of A. -/
theorem opcodeTable_fields : ∀ r ∈ opcodeTable,
    opField r.pattern = r.opcode.code ∧ rsvField r.pattern = 0#24 ∧ aField r.pattern = 0#32
      ∧ opField r.mask = BitVec.allOnes 8 ∧ aField r.mask = r.opcode.operandClass.mustBeZero := by decide

theorem exists_row (k : Opcode) : ∃ r ∈ opcodeTable, r.opcode = k := by
  cases k <;> simp [opcodeTable]

theorem opField_and (v m : CommandWord) : opField (v &&& m) = opField v &&& opField m := BitVec.extractLsb'_and
theorem rsvField_and (v m : CommandWord) : rsvField (v &&& m) = rsvField v &&& rsvField m := BitVec.extractLsb'_and
theorem aField_and (v m : CommandWord) : aField (v &&& m) = aField v &&& aField m := BitVec.extractLsb'_and

/-- With RSV = 0 a row holds the words of its opcode whose operand its class accepts. -/
theorem matches_iff {r : OpcodeRow} (hmem : r ∈ opcodeTable) (hrsv : rsvField w = 0#24) :
    r.matches w = true ↔
      opcodeOf? (opField w) = some r.opcode ∧ r.opcode.operandClass.accepts (aField w) = true := by
  obtain ⟨hop, hr, ha, hmop, hma⟩ := opcodeTable_fields r hmem
  have hmasked : opField (w &&& r.mask) = opField w := by rw [opField_and, hmop, BitVec.and_allOnes]
  rw [OpcodeRow.matches, beq_iff_eq, OperandClass.accepts_iff, ← hma, ← aField_and]
  constructor
  · intro hw
    rw [← hmasked, hw, hop, ha]
    exact ⟨opcodeOf?_code _, rfl⟩
  · rintro ⟨hk, hz⟩
    apply word_eq_of_fields
    · rw [hmasked, hop, code_of_opcodeOf? hk]
    · rw [rsvField_and, hrsv, hr, BitVec.zero_and]
    · rw [hz, ha]

theorem decode_of_matches {r : OpcodeRow} (hmem : r ∈ opcodeTable) (hrsv : rsvField w = 0#24)
    (hw : r.matches w = true) : ∃ i, decode w = .ok i ∧ i.opcode = r.opcode := by
  obtain ⟨hk, ha⟩ := (matches_iff hmem hrsv).mp hw
  exact ⟨_, decode_ok_iff.mpr ⟨_, hk, hrsv, ha, rfl⟩, opcode_withOperand _ _⟩

theorem wellFormedWord_iff :
    wellFormedWord w = true ↔ rsvField w = 0#24 ∧ ∃ r ∈ opcodeTable, r.matches w = true := by
  simp [wellFormedWord, rsvField]

theorem wellFormedWord_of_decode_ok (h : decode w = .ok i) : wellFormedWord w = true := by
  obtain ⟨k, hk, hrsv, ha, -⟩ := decode_ok_iff.mp h
  obtain ⟨r, hmem, rfl⟩ := exists_row k
  exact wellFormedWord_iff.mpr ⟨hrsv, r, hmem, (matches_iff hmem hrsv).mpr ⟨hk, ha⟩⟩

/-! The OP values of each class, and the unassigned ones (R63, R65). -/

/-- The OP values of a class (R63). -/
def OperandClass.codes : OperandClass → List (BitVec 8)
  | .z => [0x10#8, 0x11#8, 0x14#8, 0x22#8]
  | .u => [0x12#8, 0x21#8]
  | .w => [0x01#8, 0x13#8, 0x20#8]

theorem opcodeOf?_of_mem_codes {c : OperandClass} :
    ∀ op ∈ c.codes, ∃ k, opcodeOf? op = some k ∧ k.operandClass = c := by
  suffices h : ∀ op ∈ c.codes, (opcodeOf? op).map (·.operandClass) = some c by
    simpa only [Option.map_eq_some_iff] using h
  cases c <;> decide

theorem code_mem_codes_iff (c : OperandClass) : k.code ∈ c.codes ↔ k.operandClass = c := by
  cases k <;> cases c <;> decide

theorem opcodeOf?_of_unassigned {op : BitVec 8} (h : op.toNat = 0x00 ∨ (0x02 ≤ op.toNat ∧ op.toNat ≤ 0x0F)
    ∨ (0x15 ≤ op.toNat ∧ op.toNat ≤ 0x1F) ∨ (0x23 ≤ op.toNat ∧ op.toNat ≤ 0xFF)) : opcodeOf? op = none := by
  cases hk : opcodeOf? op with
  | none => rfl
  | some k =>
    rw [← code_of_opcodeOf? hk] at h
    cases k <;> simp [Opcode.code] at h

end Decoder

end Sys2Proof

namespace Sys2Proof.Machine

/-- Settles O5: an encoded command's operand is one its class accepts, and OP and A are read back. -/
theorem decodeOfEncodeIsTheCommand : Obligations.DecodeOfEncodeIsTheCommand := by
  unfold Obligations.DecodeOfEncodeIsTheCommand
  exact decode_encode

/-- Settles O6: the word and the encoding have the same three fields. -/
theorem decodedWordIsItsOwnEncoding : Obligations.DecodedWordIsItsOwnEncoding := by
  unfold Obligations.DecodedWordIsItsOwnEncoding
  exact fun w i h => encode_of_decode_ok h

/-- Settles O7: on a word whose RSV is 0, matching a row is the decoder's check of OP and A for that row's opcode. -/
theorem decoderAgreesWithMatchAndMask : Obligations.DecoderAgreesWithMatchAndMask := by
  unfold Obligations.DecoderAgreesWithMatchAndMask
  refine fun w => ⟨⟨fun ⟨i, h⟩ => wellFormedWord_of_decode_ok h, fun h => ?_⟩,
    fun r hmem hw hrsv => decode_of_matches hmem hrsv hw⟩
  obtain ⟨hrsv, r, hmem, hw⟩ := wellFormedWord_iff.mp h
  obtain ⟨i, hd, -⟩ := decode_of_matches hmem hrsv hw
  exact ⟨i, hd⟩

/-- Settles O8: no opcode has a code in the unassigned ranges. -/
theorem unassignedOpcodesAreIllegal : Obligations.UnassignedOpcodesAreIllegal := by
  unfold Obligations.UnassignedOpcodesAreIllegal
  refine ⟨?_, fun s => rfl⟩
  intro w s op h
  exact takeCommand_of_illegalOpcode (decode_of_unassigned (opcodeOf?_of_unassigned h))

/-- Settles O9: each alternative names an assigned OP and makes step 2 or step 3 of R64 fail. -/
theorem reservedBitsAreNeverIgnored : Obligations.ReservedBitsAreNeverIgnored := by
  unfold Obligations.ReservedBitsAreNeverIgnored
  intro w s op h
  apply takeCommand_of_reservedBits
  rcases h with ⟨hop, hrsv⟩ | ⟨hop, ha⟩ | ⟨hop, ha⟩
  · have hassigned : ∀ op ∈ [0x01#8, 0x10#8, 0x11#8, 0x12#8, 0x13#8, 0x14#8, 0x20#8, 0x21#8, 0x22#8],
        (opcodeOf? op).isSome = true := by decide
    obtain ⟨k, hk⟩ := Option.isSome_iff_exists.mp (hassigned op hop)
    exact decode_of_refused hk fun hz => absurd hz hrsv
  · obtain ⟨k, hk, hclass⟩ := opcodeOf?_of_mem_codes (c := .z) op hop
    exact decode_of_refused hk fun _ => by rw [hclass]; exact beq_false_of_ne ha
  · obtain ⟨k, hk, hclass⟩ := opcodeOf?_of_mem_codes (c := .u) op hop
    exact decode_of_refused hk fun _ => by rw [hclass]; exact beq_false_of_ne (aField_high w ▸ ha)

/-! ## The assembler (spec/30_encoding.md R69) -/

section Assembler

variable {k : Opcode} {n : Nat} {w : CommandWord}

theorem commandWordOf_eq (k : Opcode) (h : n < 2 ^ 32) :
    commandWordOf k n = (k.code.setWidth 64 <<< 56) ||| (BitVec.ofNat 32 n).setWidth 64 := by
  rw [commandWordOf, BitVec.setWidth_ofNat_of_le_of_lt (by decide) h]

theorem decode_commandWordOf (hn : n < 2 ^ 32) (ha : k.operandClass.accepts (BitVec.ofNat 32 n) = true) :
    ∃ i, decode (commandWordOf k n) = .ok i ∧ i.opcode = k ∧ i.operand = BitVec.ofNat 32 n := by
  rw [commandWordOf_eq k hn]
  exact ⟨_, decode_of_parts ha, opcode_withOperand _ _, operand_withOperand ha⟩

/-- An operand that fits is a word whose must-be-zero bits are 0 (R61). -/
theorem accepts_of_operandFits {c : OperandClass} (h : operandFits c n = true) :
    n < 2 ^ 32 ∧ c.accepts (BitVec.ofNat 32 n) = true := by
  cases c with
  | z => cases h
  | u =>
    have hn : n < 2 ^ 16 := of_decide_eq_true h
    refine ⟨by omega, beq_iff_eq.mpr (BitVec.eq_of_toNat_eq ?_)⟩
    simp [Nat.shiftRight_eq_div_pow]
    omega
  | w => exact ⟨of_decide_eq_true h, rfl⟩

theorem assembleCommand_none (h : assembleCommand k none = some w) :
    k.operandClass = .z ∧ w = commandWordOf k 0 := by
  obtain ⟨hclass, hw⟩ : k.operandClass = .z ∧ commandWordOf k 0 = w := by simpa [assembleCommand] using h
  exact ⟨hclass, hw.symm⟩

theorem assembleCommand_some {x : AsmOperand} (h : assembleCommand k (some x) = some w) :
    ∃ n, x.value? k.operandClass = some n ∧ operandFits k.operandClass n = true ∧ w = commandWordOf k n := by
  cases hx : x.value? k.operandClass with
  | none => simp [assembleCommand, hx] at h
  | some n =>
    obtain ⟨hfits, hw⟩ : operandFits k.operandClass n = true ∧ commandWordOf k n = w := by
      simpa [assembleCommand, hx] using h
    exact ⟨n, rfl, hfits, hw.symm⟩

end Assembler

/-- Settles O10: an accepted line's word has an operand its class accepts, so it decodes to what it was built from. -/
theorem assembledLinesDecode : Obligations.AssembledLinesDecode := by
  unfold Obligations.AssembledLinesDecode
  intro k x w h
  cases x with
  | none =>
    obtain ⟨hclass, rfl⟩ := assembleCommand_none h
    exact decode_commandWordOf (by decide) (by rw [hclass]; rfl)
  | some x =>
    obtain ⟨n, hx, hfits, rfl⟩ := assembleCommand_some h
    obtain ⟨hn, ha⟩ := accepts_of_operandFits hfits
    obtain ⟨i, hd, hk, hi⟩ := decode_commandWordOf hn ha
    exact ⟨i, hd, hk, n, hx, by rw [hi, BitVec.toNat_ofNat, Nat.mod_eq_of_lt hn]⟩

/-! ## The cause a command fails with (spec/60_exceptions.md R201, R204)

`State.failCause?` is the cause of a command that decodes, by its opcode: `exec_outcome` ties it to the commands'
meanings, `conditions_of_opcode` to the table of conditions. -/

section Causes

variable {w : CommandWord} {s t : State} {i : Instr} {k : Opcode}

/-- The cause of an init command (R133, R134, R160). -/
def State.seedCause? (s : State) : Option Cause := if s.seedValid then none else some .seedMissing

/-- The cause of a put or final command: NO_MESSAGE, then SHAPE_MISMATCH, then the command's own (R204). -/
def State.messageCause? (s : State) (accepts : Mode → Bool) (own : Option Cause) : Option Cause :=
  if s.mode = .idle then some .noMessage
  else if accepts s.mode then own
  else some .shapeMismatch

/-- The cause with which a command that decodes fails, if it fails (R64 from step 4 on). -/
def State.failCause? (s : State) : Opcode → Option Cause
  | .setseed => none
  | .h3initS => s.seedCause?
  | .h3initA => s.seedCause?
  | .h3put16 => s.messageCause? (· == .h3s) none
  | .h3put32 => s.messageCause? (· == .h3a) none
  | .h3final => s.messageCause? (fun m => m == .h3s || m == .h3a) none
  | .h2init => s.seedCause?
  | .h2put => s.messageCause? (· == .h2) (if s.count = s.declen then some .lengthOverrun else none)
  | .h2final => s.messageCause? (· == .h2) (if s.count ≠ s.declen then some .lengthUnderrun else none)

/-- `t` is the error action on `s` with the cause, or raises no error where there is none (R203). -/
def FailsOrCompletes (s t : State) : Option Cause → Prop
  | some c => t = s.fail c
  | none => t.err = true → s.err = true

theorem State.openSeeded_outcome (s : State) (m : Mode) (h0 n : Word) :
    FailsOrCompletes s (s.openSeeded m h0 n) s.seedCause? := by
  rcases s.openSeeded_cases m h0 n with ⟨hv, he⟩ | ⟨hv, he⟩ <;> rw [he, State.seedCause?, hv]
  · exact nofun
  · exact rfl

theorem State.inMessage_outcome (s : State) (accepts : Mode → Bool) {body : State → State} {own : Option Cause}
    (hbody : FailsOrCompletes s (body s) own) :
    FailsOrCompletes s (s.inMessage accepts body) (s.messageCause? accepts own) := by
  rcases s.inMessage_cases accepts body with ⟨hm, he⟩ | ⟨hm, ha, he⟩ | ⟨hm, ha, he⟩ <;> rw [he, State.messageCause?]
  · rw [if_pos hm]; rfl
  · rw [if_neg hm, ha]; rfl
  · rw [if_neg hm, ha]; exact hbody

theorem absorbAll_outcome (block : Word → Word → Word) (bytes : List Byte) (s : State) :
    FailsOrCompletes s (bytes.foldl (fun s b => s.absorb block b) s) none :=
  fun h => (absorbAll_frame block bytes s).err ▸ h

/-- A command fails with the cause of its opcode, and completes where that is none. -/
theorem exec_outcome (h : exec i s = .next t) : FailsOrCompletes s t (s.failCause? i.opcode) := by
  cases i with
  | setseed a => cases h; exact id
  | h3initS => cases h; exact s.openSeeded_outcome _ _ _
  | h3initA => cases h; exact s.openSeeded_outcome _ _ _
  | h2init n => cases h; exact s.openSeeded_outcome _ _ _
  | h3put16 u => cases h; exact s.inMessage_outcome _ (absorbAll_outcome mh3Block (enc16 u) s)
  | h3put32 v => cases h; exact s.inMessage_outcome _ (absorbAll_outcome mh3Block (enc32 v) s)
  | h3final => cases h; exact s.inMessage_outcome _ (own := none) id
  | h2put c =>
    cases h
    refine s.inMessage_outcome _ ?_
    split
    · rfl
    · exact absorbAll_outcome mh2Block [charByte c] s
  | h2final =>
    cases h
    refine s.inMessage_outcome _ ?_
    split
    · rfl
    · exact id

/-- The first three conditions, in the decoder's terms (R64 steps 1 to 3). -/
theorem errorConditions_eq (w : CommandWord) (s : State) :
    errorConditions w s =
      (.illegalOpcode, !(OperandClass.z.codes.contains (opField w) || OperandClass.u.codes.contains (opField w)
        || OperandClass.w.codes.contains (opField w)))
      :: (.reservedBits, rsvField w != 0#24)
      :: (.reservedBits, (OperandClass.z.codes.contains (opField w) && aField w != 0#32)
        || (OperandClass.u.codes.contains (opField w) && w.extractLsb' 16 16 != 0#16))
      :: (errorConditions w s).drop 3 := rfl

theorem firstCause_of_unassigned (h : opcodeOf? (opField w) = none) (s : State) :
    firstCause w s = some .illegalOpcode := by
  have hclass (c : OperandClass) : c.codes.contains (opField w) = false := by
    by_contra hmem
    obtain ⟨k, hk, -⟩ := opcodeOf?_of_mem_codes _ (List.contains_iff_mem.mp (Bool.not_eq_false _ ▸ hmem))
    cases h.symm.trans hk
  rw [firstCause, errorConditions_eq, hclass, hclass, hclass]
  rfl

/-- The conditions after the decoder's, for a command of the opcode. -/
theorem conditions_of_opcode (hk : opcodeOf? (opField w) = some k) (s : State) :
    (((errorConditions w s).drop 3).find? (·.2)).map (·.1) = s.failCause? k := by
  have hop : w.extractLsb' 56 8 = k.code := (code_of_opcodeOf? hk).symm
  simp only [errorConditions, hop, List.drop]
  cases k with
  | setseed => rfl
  | h3initS | h3initA | h2init => cases hv : s.seedValid <;> simp [Opcode.code, State.failCause?, State.seedCause?, hv]
  | h3put16 | h3put32 | h3final => cases hm : s.mode <;> simp [Opcode.code, State.failCause?, State.messageCause?, hm]
  | h2put | h2final =>
    by_cases hc : s.count = s.declen <;> cases hm : s.mode <;>
      simp [Opcode.code, State.failCause?, State.messageCause?, hm, hc]

/-- With OP assigned the decoder's conditions are that RSV is not 0 or that the operand's class refuses A. -/
theorem firstCause_of_assigned (hk : opcodeOf? (opField w) = some k) (s : State) :
    firstCause w s =
      if rsvField w = 0#24 ∧ k.operandClass.accepts (aField w) = true then s.failCause? k
      else some .reservedBits := by
  have hclass (c : OperandClass) : c.codes.contains (opField w) = decide (k.operandClass = c) := by
    rw [← code_of_opcodeOf? hk, List.contains_eq_mem, decide_eq_decide, code_mem_codes_iff]
  rw [← conditions_of_opcode hk, firstCause, errorConditions_eq, hclass, hclass, hclass, ← aField_high]
  by_cases hr : rsvField w = 0#24
  · cases hc : k.operandClass with
    | z => by_cases ha : aField w = 0#32 <;> simp [OperandClass.accepts, hr, ha]
    | u => by_cases ha : (aField w).extractLsb' 16 16 = 0#16 <;> simp [OperandClass.accepts, hr, ha]
    | w => simp [OperandClass.accepts, hr]
  · cases hc : k.operandClass <;> simp [hr]

end Causes

/-- Settles O23: the decoder's answers are the table's first three conditions, and a decoded command fails with the
cause of its opcode. -/
theorem commandsFailWithTheFirstCause : Obligations.CommandsFailWithTheFirstCause := by
  unfold Obligations.CommandsFailWithTheFirstCause
  intro w s
  cases hk : opcodeOf? (opField w) with
  | none =>
    rw [firstCause_of_unassigned hk]
    exact takeCommand_of_illegalOpcode (decode_of_unassigned hk)
  | some k =>
    rw [firstCause_of_assigned hk]
    split_ifs with h
    · obtain ⟨hr, ha⟩ := h
      have hd : decode w = .ok (k.withOperand (aField w)) := decode_ok_iff.mpr ⟨k, hk, hr, ha, rfl⟩
      obtain ⟨t, ht⟩ := exec_next (k.withOperand (aField w)) s
      have htake : takeCommand w s = .next t := (takeCommand_of_ok hd).trans ht
      have hout := exec_outcome ht
      rw [opcode_withOperand] at hout
      cases hf : s.failCause? k with
      | none => rw [hf] at hout; exact ⟨_, t, hd, ht, htake, hout⟩
      | some c => rw [hf] at hout; exact htake.trans (congrArg Host.Outcome.next hout)
    · exact takeCommand_of_reservedBits (decode_of_refused hk (by simpa using h))

end Sys2Proof.Machine

namespace Sys2Proof.Machine

/-! ## The arithmetic primitives (spec/40_arith.md R80 to R87) -/

/-- Joining two bit vectors weights the left one by the width of the right one. -/
theorem toNat_append_eq_add {m n : Nat} (x : BitVec m) (y : BitVec n) :
    (x ++ y).toNat = x.toNat * 2 ^ n + y.toNat := by
  rw [BitVec.toNat_append, ← Nat.shiftLeft_add_eq_or_of_lt y.isLt, Nat.shiftLeft_eq]

/-- Settles O46: each primitive's own bit or number equation; a block word is its bytes joined. -/
theorem primitivesByBitsAndNumbers : Obligations.PrimitivesByBitsAndNumbers := by
  unfold Obligations.PrimitivesByBitsAndNumbers
  refine ⟨fun a b => ⟨BitVec.toNat_add a b, BitVec.toNat_mul a b⟩, fun x n i hi => ⟨?_, ?_⟩, fun b0 b1 b2 b3 => ?_⟩
  · rw [shr32, BitVec.getLsbD_ushiftRight]
    by_cases h : n + i < 32
    · simp [h]
    · simp [h, BitVec.getLsbD_of_ge x (n + i) (by omega)]
  · simp only [shl32, BitVec.getLsbD_shiftLeft, hi]
    by_cases h : i < n
    · simp [h, Nat.not_le.mpr h]
    · simp [h, Nat.not_lt.mp h]
  · rw [le32_append]
    simp only [toNat_append_eq_add]
    ring

/-- Settles O47: a product of words is taken modulo 2^32, where the partial products suffice (`mul_split`). -/
theorem multiplyEqualsItsSplitForm : Obligations.MultiplyEqualsItsSplitForm := by
  unfold Obligations.MultiplyEqualsItsSplitForm
  intro a b
  have hlow : (a.extractLsb' 0 16).toNat = a.toNat % 2 ^ 16 := by simp
  have hhigh : (a.extractLsb' 16 16).toNat = a.toNat / 2 ^ 16 := by
    have ha := a.isLt
    simp only [BitVec.extractLsb'_toNat, Nat.shiftRight_eq_div_pow]
    omega
  apply BitVec.eq_of_toNat_eq
  rw [hlow, hhigh, BitVec.toNat_ofNat, mul32, BitVec.toNat_mul, mul_split]

section Rotation

variable {i : Nat}

/-- Bit i of the rotation by any amount is one bit of the operand (R83). -/
theorem getLsbD_rotl32_eq_mod (x : Word) (r : Nat) (hi : i < 32) :
    (rotl32 x r).getLsbD i = x.getLsbD ((i + 32 - r % 32) % 32) := by
  rw [rotl32_mod, getLsbD_rotl32 _ _ _ (Nat.mod_lt r (by decide)) hi]
  split <;> congr 1 <;> omega

/-- At amount 0 the right shift is by 32 and moves every bit out. -/
theorem rotl32_zero (x : Word) : rotl32 x 0 = x := by
  simp [rotl32, BitVec.ushiftRight_eq_zero]

/-- The amounts of two rotations add up modulo 32 (R87, law 4). -/
theorem rotl32_rotl32 (x : Word) (r q : Nat) : rotl32 (rotl32 x r) q = rotl32 x ((r + q) % 32) := by
  apply BitVec.eq_of_getLsbD_eq
  intro i hi
  rw [getLsbD_rotl32_eq_mod _ _ hi, getLsbD_rotl32_eq_mod _ _ (Nat.mod_lt _ (by decide)), getLsbD_rotl32_eq_mod _ _ hi]
  congr 1
  omega

theorem rotl32_xor (x y : Word) (r : Nat) : rotl32 (x ^^^ y) r = rotl32 x r ^^^ rotl32 y r := by
  apply BitVec.eq_of_getLsbD_eq
  intro i hi
  simp only [BitVec.getLsbD_xor, getLsbD_rotl32_eq_mod _ _ hi]

end Rotation

/-- Settles O48: the rotated bits by `getLsbD_rotl32_eq_mod`; an amount of 32 is an amount of 0. -/
theorem rotationMovesEachBit : Obligations.RotationMovesEachBit := by
  unfold Obligations.RotationMovesEachBit
  refine ⟨fun x r i hr hi => ?_, fun x r _ hr => ⟨?_, ?_, ?_⟩⟩
  · rw [getLsbD_rotl32_eq_mod x r hi, Nat.mod_eq_of_lt hr]
  · rw [rotl32, Nat.mod_eq_of_lt hr]
  · exact rotl32_zero x
  · exact (rotl32_mod x 32).trans (rotl32_zero x)

section Bijections

open Function

/-- Multiplying by a mixing constant loses nothing: each has an inverse modulo 2^32 (R87, law 7). -/
theorem mul32_mixingConstant_bijective :
    ∀ c ∈ [mh3C1, mh3C2, mh3M5, mh3F1, mh3F2, mh2M], Bijective fun x : Word => mul32 x c := by
  obtain ⟨hC1, hC2, hM5, hF1, hF2, hM⟩ := mixing_constants_have_inverses
  have hinv : ∀ c ∈ [mh3C1, mh3C2, mh3M5, mh3F1, mh3F2, mh2M], ∃ d, mul32 c d = 1#32 := by
    simp only [List.forall_mem_cons]
    exact ⟨⟨_, hC1⟩, ⟨_, hC2⟩, ⟨_, hM5⟩, ⟨_, hF1⟩, ⟨_, hF2⟩, ⟨_, hM⟩, nofun⟩
  intro c hc
  obtain ⟨d, hd⟩ := hinv c hc
  exact (mul32_injective hd).bijective_of_finite

theorem xor_shr32_bijective {n : Nat} (hn : 0 < n) : Bijective fun x : Word => x ^^^ shr32 x n :=
  (xor_shr32_injective n hn).bijective_of_finite

theorem rotl32_bijective {r : Nat} (hr : r < 32) : Bijective fun x : Word => rotl32 x r :=
  (rotl32_injective r hr).bijective_of_finite

theorem add32_const_bijective (c : Word) : Bijective fun x : Word => add32 x c :=
  (add_left_injective c).bijective_of_finite

/-- Xor with a fixed word undoes itself. -/
theorem xor_const_bijective (c : Word) : Bijective fun x : Word => x ^^^ c :=
  Involutive.bijective fun x => by rw [BitVec.xor_assoc, BitVec.xor_self, BitVec.xor_zero]

theorem mh3MixK_bijective : Bijective mh3MixK :=
  have hC1 := mul32_mixingConstant_bijective mh3C1 (by simp)
  have hC2 := mul32_mixingConstant_bijective mh3C2 (by simp)
  hC2.comp ((rotl32_bijective (r := 15) (by decide)).comp hC1)

theorem fmix32_bijective : Bijective fmix32 :=
  have hF1 := mul32_mixingConstant_bijective mh3F1 (by simp)
  have hF2 := mul32_mixingConstant_bijective mh3F2 (by simp)
  have h16 := xor_shr32_bijective (n := 16) (by decide)
  have h13 := xor_shr32_bijective (n := 13) (by decide)
  h16.comp (hF2.comp (h13.comp (hF1.comp h16)))

theorem mh3Block_bijective (k : Word) : Bijective fun h => mh3Block h k :=
  have hM5 := mul32_mixingConstant_bijective mh3M5 (by simp)
  (add32_const_bijective mh3N1).comp
    (hM5.comp ((rotl32_bijective (r := 13) (by decide)).comp (xor_const_bijective (mh3MixK k))))

end Bijections

/-- Settles O49: the ring laws of words, the laws of the rotation and of xor, and the mixing steps as compositions of
bijections. -/
theorem arithmeticLaws : Obligations.ArithmeticLaws := by
  unfold Obligations.ArithmeticLaws
  have hodd : ∀ c ∈ [mh3C1, mh3C2, mh3M5, mh3F1, mh3F2, mh2M], c.toNat % 2 = 1 := by
    simp only [List.forall_mem_cons]
    exact ⟨rfl, rfl, rfl, rfl, rfl, rfl, nofun⟩
  refine ⟨?sumAndProduct, fun _ _ _ => BitVec.mul_add, fun a => ⟨BitVec.mul_one a, BitVec.mul_zero⟩, rotl32_rotl32,
    rotl32_xor, ?xor, fun c hc => ⟨hodd c hc, mul32_mixingConstant_bijective c hc⟩, rfl,
    fun n hn _ => xor_shr32_bijective hn, mh3MixK_bijective, fmix32_bijective, mh3Block_bijective⟩
  case sumAndProduct =>
    exact fun a b c => ⟨BitVec.add_comm a b, BitVec.add_assoc a b c, BitVec.mul_comm a b, BitVec.mul_assoc a b c⟩
  case xor =>
    exact fun x y z => ⟨BitVec.xor_assoc x y z, BitVec.xor_comm x y, BitVec.xor_zero, BitVec.xor_self⟩

end Sys2Proof.Machine

namespace Sys2Proof.Machine

/-! ## The Byte Encoder (spec/41_byte_encoder.md R100 to R107) -/

/-- The two parts of a joined vector, each zero-extended and put in its place. -/
theorem setWidth_append_eq_or {m n w : Nat} (x : BitVec m) (y : BitVec n) :
    (x ++ y).setWidth w = y.setWidth w ||| (x.setWidth w <<< n) := by
  apply BitVec.eq_of_getLsbD_eq
  intro i hi
  simp only [BitVec.getLsbD_setWidth, BitVec.getLsbD_append, BitVec.getLsbD_or, BitVec.getLsbD_shiftLeft, hi]
  by_cases h : i < n
  · simp [h]
  · simp [h, BitVec.getLsbD_of_ge y i (by omega), show i - n < w by omega]

/-- The bytes of an integer as a block word: the bytes change places (R107, array shape). -/
theorem le32_enc32 (v : Word) :
    le32 (v.extractLsb' 24 8) (v.extractLsb' 16 8) (v.extractLsb' 8 8) (v.extractLsb' 0 8) = bswap32 v :=
  le32_append _ _ _ _

/-- The bytes of two code units as a block word: each half is a code unit with its bytes changed, the first unit in
the low half (R107, string shape). -/
theorem le32_enc16 (a b : CodeUnit) :
    le32 (a.extractLsb' 8 8) (a.extractLsb' 0 8) (b.extractLsb' 8 8) (b.extractLsb' 0 8)
      = (bswap16 a).setWidth 32 ||| ((bswap16 b).setWidth 32 <<< 16) := by
  have hhalf (c : CodeUnit) :
      (bswap16 c).setWidth 32 = zextByte (c.extractLsb' 8 8) ||| shl32 (zextByte (c.extractLsb' 0 8)) 8 :=
    setWidth_append_eq_or _ _
  rw [hhalf, hhalf, BitVec.shiftLeft_or_distrib, ← BitVec.or_assoc, shl32, shl32, ← BitVec.shiftLeft_add]
  rfl

section BlockWords

variable (block : Word → Word → Word)

theorem blockFold_encInt32s_cons (h v : Word) (values : List Word) :
    blockFold block h (encInt32s (v :: values)) = blockFold block (block h (bswap32 v)) (encInt32s values) := by
  rw [← le32_enc32]
  rfl

theorem blockFold_encString_cons_cons (h : Word) (a b : CodeUnit) (rest : List CodeUnit) :
    blockFold block h (encString (a :: b :: rest))
      = blockFold block (block h ((bswap16 a).setWidth 32 ||| ((bswap16 b).setWidth 32 <<< 16))) (encString rest) := by
  rw [← le32_enc16]
  rfl

theorem blockFold_encInt32s (h : Word) (values : List Word) :
    blockFold block h (encInt32s values) = (values.foldl (fun h v => block h (bswap32 v)) h, []) := by
  induction values generalizing h with
  | nil => rfl
  | cons v values ih => rw [blockFold_encInt32s_cons, ih, List.foldl_cons]

end BlockWords

/-- Settles O50: an integer fills one block and two code units fill one, so an array leaves nothing and a string at
most its last code unit. -/
theorem encoderBlockWords : Obligations.EncoderBlockWords := by
  unfold Obligations.EncoderBlockWords
  exact fun block h => ⟨blockFold_encInt32s block h, blockFold_encString_cons_cons block h, fun _ => rfl, rfl⟩

section Injectivity

open Function

/-- Pieces of one positive length can be read back from their concatenation: it loses nothing when no piece does. -/
theorem flatMap_injective {α β : Type} {f : α → List β} {n : Nat} (hn : 0 < n) (hlen : ∀ a, (f a).length = n)
    (hf : Injective f) : Injective (List.flatMap f) := by
  have hne (a : α) : f a ≠ [] := List.ne_nil_of_length_pos (hlen a ▸ hn)
  intro xs
  induction xs with
  | nil =>
    rintro (_ | ⟨y, ys⟩) h
    · rfl
    · exact absurd (List.append_eq_nil_iff.mp h.symm).1 (hne y)
  | cons x xs ih =>
    rintro (_ | ⟨y, ys⟩) h
    · exact absurd (List.append_eq_nil_iff.mp h).1 (hne x)
    · obtain ⟨hhead, htail⟩ := List.append_inj h ((hlen x).trans (hlen y).symm)
      rw [hf hhead, ih htail]

/-- A code unit is its two bytes joined. -/
theorem codeUnit_eq_append_bytes (c : CodeUnit) : c.extractLsb' 8 8 ++ c.extractLsb' 0 8 = c :=
  (BitVec.extractLsb'_append_extractLsb'_eq_extractLsb' rfl).trans BitVec.extractLsb'_eq_self

/-- An integer is its four bytes joined. -/
theorem word_eq_append_bytes (v : Word) :
    v.extractLsb' 24 8 ++ v.extractLsb' 16 8 ++ v.extractLsb' 8 8 ++ v.extractLsb' 0 8 = v := by
  have hjoin (start len : Nat) : v.extractLsb' (start + 8) len ++ v.extractLsb' start 8
      = v.extractLsb' start (len + 8) :=
    BitVec.extractLsb'_append_extractLsb'_eq_extractLsb' rfl
  rw [hjoin 16 8, hjoin 8 16, hjoin 0 24, BitVec.extractLsb'_eq_self]

theorem enc16_injective : Injective enc16 := by
  intro c d h
  injection h with hhigh h
  injection h with hlow
  rw [← codeUnit_eq_append_bytes c, hhigh, hlow, codeUnit_eq_append_bytes]

theorem enc32_injective : Injective enc32 := by
  intro v w h
  injection h with h24 h
  injection h with h16 h
  injection h with h8 h
  injection h with h0
  rw [← word_eq_append_bytes v, h24, h16, h8, h0, word_eq_append_bytes]

end Injectivity

/-- Settles O51: the encoder joins pieces of one length, and a code unit or an integer is its bytes joined. -/
theorem encoderIsInjective : Obligations.EncoderIsInjective := by
  unfold Obligations.EncoderIsInjective
  exact ⟨flatMap_injective (n := 2) (by decide) (fun _ => rfl) enc16_injective,
    flatMap_injective (n := 4) (by decide) (fun _ => rfl) enc32_injective⟩

end Sys2Proof.Machine

namespace Sys2Proof.Machine

/-! ## Command words by operand class (spec/30_encoding.md R61, R64) -/

section CommandWords

variable {w : CommandWord} {k : Opcode} {i : Instr}

/-- A word of an assigned opcode executes, or fails with RESERVED_BITS for its RSV or its operand. -/
theorem takeCommand_of_opcode (hop : opField w = k.code) (s : State) :
    takeCommand w s =
      if rsvField w = 0#24 ∧ k.operandClass.accepts (aField w) = true then exec (k.withOperand (aField w)) s
      else .next (s.fail .reservedBits) := by
  have hk : opcodeOf? (opField w) = some k := by rw [hop, opcodeOf?_code]
  split_ifs with h
  · obtain ⟨hr, ha⟩ := h
    exact takeCommand_of_ok (decode_ok_iff.mpr ⟨k, hk, hr, ha, rfl⟩)
  · exact takeCommand_of_reservedBits (decode_of_refused hk (by simpa using h))

theorem operand_of_classZ (hz : i.opcode.operandClass = .z) : i.operand = 0#32 := by
  cases i with
  | h3initS | h3initA | h3final | h2final => rfl
  | _ => cases hz

/-- A class Z command has one word, its encoding. -/
theorem takeCommand_of_classZ (hz : i.opcode.operandClass = .z) (hop : opField w = i.opcode.code) (s : State) :
    takeCommand w s = if w = encode i then exec i s else .next (s.fail .reservedBits) := by
  split_ifs with hw
  · rw [hw, takeCommand_of_ok (decode_encode i)]
  · rw [takeCommand_of_opcode hop, if_neg]
    rintro ⟨hr, ha⟩
    rw [hz, OperandClass.accepts, beq_iff_eq] at ha
    refine hw (word_eq_of_fields ?_ ?_ ?_)
    · rw [hop, opField_encode]
    · rw [hr, rsvField_encode]
    · rw [ha, aField_encode, operand_of_classZ hz]

/-- A class U command executes when RSV and A[31:16] are 0. -/
theorem takeCommand_of_classU (hu : k.operandClass = .u) (hop : opField w = k.code) (s : State) :
    takeCommand w s =
      if w.extractLsb' 32 24 = 0#24 ∧ w.extractLsb' 16 16 = 0#16 then exec (k.withOperand (aField w)) s
      else .next (s.fail .reservedBits) := by
  simp only [takeCommand_of_opcode hop, hu, OperandClass.accepts, beq_iff_eq, aField_high, rsvField]

/-- The class U operand is bits [15:0] of the word. -/
theorem unitOperand_aField (w : CommandWord) : unitOperand (aField w) = w.extractLsb' 0 16 :=
  BitVec.extractLsb'_extractLsb'_of_le (by decide)

/-- A class W command executes when RSV is 0. -/
theorem takeCommand_of_classW (hw : k.operandClass = .w) (hop : opField w = k.code) (s : State) :
    takeCommand w s =
      if w.extractLsb' 32 24 = 0#24 then exec (k.withOperand (w.extractLsb' 0 32)) s
      else .next (s.fail .reservedBits) := by
  simp only [takeCommand_of_opcode hop, hw, OperandClass.accepts, and_true, rsvField, aField]

end CommandWords

/-! ## The bytes of TAIL (spec/10_state.md R25, spec/42_mh3.md R132) -/

section TailBytes

variable (tail : BitVec 24) (b : Byte)

/-- The window as a word: its three bytes, little-endian, under a zero byte. -/
theorem setWidth_tail_eq_le32 :
    tail.setWidth 32 = le32 (tail.extractLsb' 0 8) (tail.extractLsb' 8 8) (tail.extractLsb' 16 8) 0#8 := by
  have htail : tail.extractLsb' 16 8 ++ tail.extractLsb' 8 8 ++ tail.extractLsb' 0 8 = tail := by
    have hjoin (start len : Nat) : tail.extractLsb' (start + 8) len ++ tail.extractLsb' start 8
        = tail.extractLsb' start (len + 8) :=
      BitVec.extractLsb'_append_extractLsb'_eq_extractLsb' rfl
    rw [hjoin 8 8, hjoin 0 16, BitVec.extractLsb'_eq_self]
  conv => lhs; rw [← htail]
  rw [setWidth_append_eq_or, setWidth_append_eq_or, BitVec.shiftLeft_or_distrib, ← BitVec.shiftLeft_add]
  simp [le32, zextByte, shl32, BitVec.or_assoc]

/-- The block word of a full window and a fourth byte (R132, R159). -/
theorem blockWord_eq_le32 :
    blockWord tail b = le32 (tail.extractLsb' 0 8) (tail.extractLsb' 8 8) (tail.extractLsb' 16 8) b := by
  rw [blockWord, setWidth_tail_eq_le32]
  simp [le32, zextByte, shl32]

/-- Writing byte `j` of the window changes that byte alone. -/
theorem extractLsb'_putTailByte (i : Nat) (hi : i < 3) (j : Nat) :
    (putTailByte tail j b).extractLsb' (8 * i) 8 = if i = j then b else tail.extractLsb' (8 * i) 8 := by
  apply extractLsb'_eq_of_getLsbD
  intro n hn
  rw [getLsbD_putTailByte _ _ _ _ (by omega)]
  by_cases h : i = j
  · subst h; simp [hn]
  · simp [h, show ¬ (8 * j ≤ 8 * i + n ∧ 8 * i + n < 8 * j + 8) by omega, hn]

/-- The block word of a window whose third byte was just written. -/
theorem blockWord_putTailByte_two (c d : Byte) :
    blockWord (putTailByte tail 2 c) d = le32 (tail.extractLsb' 0 8) (tail.extractLsb' 8 8) c d := by
  have byte (i : Nat) (hi : i < 3) := extractLsb'_putTailByte tail c i hi 2
  rw [blockWord_eq_le32, show (putTailByte tail 2 c).extractLsb' 0 8 = _ from byte 0 (by decide),
    show (putTailByte tail 2 c).extractLsb' 8 8 = _ from byte 1 (by decide),
    show (putTailByte tail 2 c).extractLsb' 16 8 = _ from byte 2 (by decide)]
  rfl

/-- Byte `j` of the packed window is byte `j` of the list (R25). -/
theorem extractLsb'_packTail (t : List Byte) (j : Nat) (hj : j < 3) :
    (packTail t).extractLsb' (8 * j) 8 = t.getD j 0#8 := by
  apply extractLsb'_eq_of_getLsbD
  intro n hn
  rw [getLsbD_packTail _ _ (by omega), show (8 * j + n) / 8 = j by omega, show (8 * j + n) % 8 = n by omega]

/-- The tail's ladder builds the little-endian word of its bytes (R123, R131). -/
theorem mh3TailWord_eq_le32 (t : List Byte) (h : t.length ≤ 3) :
    mh3TailWord t = le32 (t.getD 0 0#8) (t.getD 1 0#8) (t.getD 2 0#8) 0#8 := by
  rw [mh3TailWord_eq_packTail t h, setWidth_tail_eq_le32, ← extractLsb'_packTail t 0 (by decide),
    ← extractLsb'_packTail t 1 (by decide), ← extractLsb'_packTail t 2 (by decide)]

end TailBytes

/-! ## Absorbing the bytes of one put (R132, R135, R136) -/

section Absorbing

variable {s : State} (block : Word → Word → Word) (a b c d : Byte)

/-- Two bytes into an empty window wait there. -/
theorem State.absorb_two_of_empty (h : s.tailcnt = 0#2) :
    (s.absorb block a).absorb block b = { s with
      count := s.count + 2#32, tail := putTailByte (putTailByte s.tail 0 a) 1 b, tailcnt := 2#2 } := by
  rw [absorb_of_lt block a (by simp [h]), absorb_of_lt block b (by simp [h])]
  simp [h, BitVec.add_assoc]

/-- Two bytes into a window that holds two complete a block. -/
theorem State.absorb_two_of_two (h : s.tailcnt = 2#2) :
    (s.absorb block a).absorb block b = { s with
      count := s.count + 2#32, tail := 0#24, tailcnt := 0#2,
      h := block s.h (le32 (s.tail.extractLsb' 0 8) (s.tail.extractLsb' 8 8) a b) } := by
  rw [absorb_of_lt block a (by simp [h]), absorb_of_full block b (by simp [h])]
  simp [h, blockWord_putTailByte_two, BitVec.add_assoc]

/-- Four bytes into an empty window are one block. -/
theorem State.absorb_four_of_empty (h : s.tailcnt = 0#2) :
    (((s.absorb block a).absorb block b).absorb block c).absorb block d = { s with
      count := s.count + 4#32, tail := 0#24, tailcnt := 0#2, h := block s.h (le32 a b c d) } := by
  have hfirst : (putTailByte (putTailByte s.tail 0 a) 1 b).extractLsb' 0 8 = a :=
    (extractLsb'_putTailByte _ b 0 (by decide) 1).trans (extractLsb'_putTailByte s.tail a 0 (by decide) 0)
  have hsecond : (putTailByte (putTailByte s.tail 0 a) 1 b).extractLsb' 8 8 = b :=
    extractLsb'_putTailByte _ b 1 (by decide) 1
  rw [absorb_two_of_empty block a b h, absorb_two_of_two block c d rfl]
  simp [hfirst, hsecond, BitVec.add_assoc]

end Absorbing

/-! ## The MurmurHash3 commands (spec/42_mh3.md section 3) -/

/-- Settles O20: `absorb_of_lt` and `absorb_of_full` for both block functions, with TAIL bit by bit. -/
theorem absorbFillsTheTailThenMixes : Obligations.AbsorbFillsTheTailThenMixes := by
  unfold Obligations.AbsorbFillsTheTailThenMixes
  intro s b
  refine ⟨fun hlt => ?_, fun hfull => ?_⟩
  · rw [State.absorb3, State.absorb2, State.absorb_of_lt mh3Block b hlt, State.absorb_of_lt mh2Block b hlt]
    exact ⟨rfl, rfl, getLsbD_putTailByte s.tail s.tailcnt.toNat b⟩
  · have h3 : s.tailcnt = 3#2 := BitVec.eq_of_toNat_eq hfull
    rw [State.absorb3, State.absorb2, State.absorb_of_full mh3Block b h3, State.absorb_of_full mh2Block b h3,
      blockWord_eq_le32]
    exact ⟨rfl, rfl⟩

section Commands

variable {s : State} {i : Instr}

theorem exec_h3initS (hv : s.seedValid = true) : exec .h3initS s = .next (s.openMessage .h3s s.seed 0#32) :=
  congrArg Host.Outcome.next (State.openSeeded_of_valid hv _ _ _)

theorem exec_h3initA (hv : s.seedValid = true) : exec .h3initA s = .next (s.openMessage .h3a s.seed 0#32) :=
  congrArg Host.Outcome.next (State.openSeeded_of_valid hv _ _ _)

/-- A put or final command with no message open fails (R135 to R137, R161, R162). -/
theorem exec_of_idle (hi : isPut i = true ∨ isFinal i = true) (hm : s.mode = .idle) :
    exec i s = .next (s.fail .noMessage) := by
  cases i with
  | h3put16 | h3put32 | h3final | h2put | h2final =>
    exact congrArg Host.Outcome.next (State.inMessage_of_idle hm _ _)
  | _ => simp [isPut, isFinal] at hi

/-- A put command fails or changes only the stream. -/
theorem exec_put_cases {t : State} (hi : isPut i = true) (h : exec i s = .next t) :
    FailedTo s t ∨ SameButStream s t := by
  obtain ⟨hnotInit, hnotFinal⟩ : isInit i = false ∧ isFinal i = false := by
    cases i <;> simp [isPut, isInit, isFinal] at hi ⊢
  rcases exec_kinds h with hf | ⟨a, rfl, -⟩ | ⟨hinit, -⟩ | ⟨-, -, block, rfl⟩ | ⟨hfinal, -⟩
  · exact .inl hf
  · cases hi
  · cases hnotInit.symm.trans hinit
  · exact .inr (absorbAll_frame block (fedBytes i) s)
  · cases hnotFinal.symm.trans hfinal

/-- An empty window holds no bits, under item 1 of R36. -/
theorem State.Inv.tail_eq_zero (h : s.Inv) (h0 : s.tailcnt = 0#2) : s.tail = 0#24 := by
  simpa [h0] using h.tailClear

end Commands

/-- Settles O12: the message opens with a seed only, and a class Z command has one word. -/
theorem h3InitSOpensStringMessage : Obligations.H3InitSOpensStringMessage := by
  unfold Obligations.H3InitSOpensStringMessage
  exact ⟨fun s hv => exec_h3initS hv, fun s hv => exec_init_without_seed rfl hv,
    fun w s hop => takeCommand_of_classZ (i := .h3initS) rfl hop s⟩

/-- Settles O13: as H3INIT_S, in the array mode. -/
theorem h3InitAOpensArrayMessage : Obligations.H3InitAOpensArrayMessage := by
  unfold Obligations.H3InitAOpensArrayMessage
  exact ⟨fun s hv => exec_h3initA hv, fun s hv => exec_init_without_seed rfl hv,
    fun w s hop => takeCommand_of_classZ (i := .h3initA) rfl hop s⟩

/-- Settles O15: two absorbed bytes, by what the window held; `takeCommand_of_classU` for the words. -/
theorem h3Put16AbsorbsUpperByteFirst : Obligations.H3Put16AbsorbsUpperByteFirst := by
  unfold Obligations.H3Put16AbsorbsUpperByteFirst
  refine ⟨fun u s hm => exec_h3put16 u hm, fun u s t hm h0 he => ?empty, fun u s t hm h2 he => ?full,
    fun u s hm => exec_of_idle (.inl rfl) hm, fun u s hm => ?mismatch, fun w s hop => ?word⟩
  case empty =>
    cases (exec_h3put16 u hm).symm.trans he
    rw [show s.absorb3All (enc16 u) = _ from State.absorb_two_of_empty mh3Block _ _ h0]
    exact ⟨rfl, rfl, rfl⟩
  case full =>
    cases (exec_h3put16 u hm).symm.trans he
    rw [show s.absorb3All (enc16 u) = _ from State.absorb_two_of_two mh3Block _ _ h2]
    exact ⟨rfl, rfl, rfl, rfl⟩
  case mismatch =>
    refine congrArg Host.Outcome.next (State.inMessage_of_mismatch ?_ ?_ _) <;> rcases hm with hm | hm <;> simp [hm]
  case word => rw [takeCommand_of_classU (k := .h3put16) rfl hop, Opcode.withOperand, unitOperand_aField]

/-- Settles O16: four absorbed bytes; under R36 the window of an array message is empty, so they are one block. -/
theorem h3Put32MixesTheReversedWord : Obligations.H3Put32MixesTheReversedWord := by
  unfold Obligations.H3Put32MixesTheReversedWord
  refine ⟨fun v s hm => exec_h3put32 v hm, fun v s hinv hm => ?block, fun v s hm => exec_of_idle (.inl rfl) hm,
    fun v s hm => ?mismatch, fun w s hop => takeCommand_of_classW (k := .h3put32) rfl hop s⟩
  case block =>
    have h0 := hinv.h3aNoTail hm
    have htail := hinv.tail_eq_zero h0
    rw [exec_h3put32 v hm, show s.absorb3All (enc32 v) = _ from State.absorb_four_of_empty mh3Block _ _ _ _ h0,
      le32_enc32, ← h0, ← htail]
  case mismatch =>
    refine congrArg Host.Outcome.next (State.inMessage_of_mismatch ?_ ?_ _) <;> rcases hm with hm | hm <;> simp [hm]

/-- Settles O17: the command closes the message with `hash3Value`; the pipeline maps an empty window to 0. -/
theorem h3FinalGivesTheResult : Obligations.H3FinalGivesTheResult := by
  unfold Obligations.H3FinalGivesTheResult
  refine ⟨fun s hm => exec_h3final hm, fun s hinv h0 => ?emptyTail, fun s hm => exec_of_idle (.inr rfl) hm,
    fun s hm => ?mismatch, fun w s hop => takeCommand_of_classZ (i := .h3final) rfl hop s⟩
  case emptyTail =>
    rw [hinv.tail_eq_zero h0, show mh3MixK ((0#24).setWidth 32) = 0#32 by decide, BitVec.xor_zero]
  case mismatch => exact congrArg Host.Outcome.next (State.inMessage_of_mismatch (by simp [hm]) (by simp [hm]) _)

/-- Settles O21: the error action and the stream's frame both keep these registers. -/
theorem putCommandsFrame : Obligations.PutCommandsFrame := by
  unfold Obligations.PutCommandsFrame
  intro i s t hi h
  rcases exec_put_cases hi h with ⟨c, hc, rfl⟩ | f
  · exact ⟨rfl, rfl, rfl, rfl, rfl, rfl, rfl, .inl ⟨c, hc, rfl⟩⟩
  · exact ⟨f.seed, f.seedValid, f.declen, f.result, f.resetLine, f.inputs, f.reads,
      .inr ⟨f.mode, f.done, f.err, f.cause⟩⟩

/-! ## The seed invariants -/

section SeedInvariants

variable {s t : State}

theorem State.SeedInv.withBoundary (h : s.SeedInv) (reset : Bool) (inputs : List HostAction)
    (reads : List (ReadAddr × Word)) :
    ({ s with resetLine := reset, inputs := inputs, reads := reads } : State).SeedInv :=
  ⟨h.openSeeded, h.h3Declen, h.doneResult⟩

/-- With no message open, only the last item says something. -/
theorem State.seedInv_of_idle (hm : s.mode = .idle) (hdone : s.done = true → s.h = s.result) : s.SeedInv where
  openSeeded hopen := absurd hm hopen
  h3Declen := by simp [hm]
  doneResult hd := ⟨hm, hdone hd⟩

theorem State.seedInv_of_failedTo (hf : FailedTo s t) : t.SeedInv := by
  obtain ⟨c, -, rfl⟩ := hf
  exact seedInv_of_idle rfl nofun

theorem State.seedInv_openMessage (hv : s.seedValid = true) {m : Mode} {h0 n : Word}
    (hn : m = .h3s ∨ m = .h3a → n = 0#32) : (s.openMessage m h0 n).SeedInv :=
  ⟨fun _ => hv, hn, nofun⟩

/-- An open message has DONE = 0, so feeding it writes no register that the invariants compare. -/
theorem State.SeedInv.feed (h : s.SeedInv) (hopen : s.mode ≠ .idle) (f : SameButStream s t) : t.SeedInv where
  openSeeded _ := f.seedValid.trans (h.openSeeded hopen)
  h3Declen hm := f.declen.trans (h.h3Declen (f.mode ▸ hm))
  doneResult hd := absurd (h.doneResult (f.done ▸ hd)).1 hopen

/-- Every command keeps the seed invariants. -/
theorem State.SeedInv.command (h : s.SeedInv) {i : Instr} (he : exec i s = .next t) : t.SeedInv := by
  rcases exec_cases he with hf | ⟨a, -, rfl⟩ | ⟨-, hv, rfl⟩ | ⟨-, hv, rfl⟩ | ⟨n, -, hv, rfl⟩
    | ⟨u, -, hm, rfl⟩ | ⟨v, -, hm, rfl⟩ | ⟨c, -, hm, -, rfl⟩ | ⟨-, -, rfl⟩ | ⟨-, -, -, rfl⟩
  · exact seedInv_of_failedTo hf
  · exact ⟨fun _ => rfl, h.h3Declen, h.doneResult⟩
  · exact seedInv_openMessage hv fun _ => rfl
  · exact seedInv_openMessage hv fun _ => rfl
  · exact seedInv_openMessage hv (by simp)
  · exact h.feed (by simp [hm]) (absorbAll_frame mh3Block (enc16 u) s)
  · exact h.feed (by simp [hm]) (absorbAll_frame mh3Block (enc32 v) s)
  · exact h.feed (by simp [hm]) (absorbAll_frame mh2Block [charByte c] s)
  · exact seedInv_of_idle rfl fun _ => rfl
  · exact seedInv_of_idle rfl fun _ => rfl

end SeedInvariants

/-- Settles O37: a step leaves the registers, fails, executes a command or resets, and each keeps the invariants. -/
theorem stepsKeepTheSeedInvariants : Obligations.StepsKeepTheSeedInvariants := by
  unfold Obligations.StepsKeepTheSeedInvariants
  intro s t h hs
  rcases step_kinds hs with ⟨reset, inputs, reads, rfl⟩ | ⟨rest, hf⟩ | ⟨w, i, rest, -, -, -, he⟩ | ⟨rest, -, rfl⟩
  · exact h.withBoundary reset inputs reads
  · exact State.seedInv_of_failedTo hf
  · exact (h.withBoundary s.resetLine rest s.reads).command he
  · exact State.reset_seedInv.withBoundary true rest s.reads

/-! ## Streaming (R138) -/

section Streaming

variable {m : Mode}

/-- In mode `m` the command completes and appends its key bytes to what the message has absorbed. -/
def Feeds (m : Mode) (i : Instr) : Prop :=
  ∀ (s : State) (h0 : Word) (key : List Byte), s.mode = m → s.Absorbed mh3Block h0 key →
    ∃ t, exec i s = .next t ∧ t.mode = m ∧ t.Absorbed mh3Block h0 (key ++ keyBytes i)

/-- SETSEED feeds nothing and leaves the message alone (R180). -/
theorem feeds_setseed (m : Mode) (a : Word) : Feeds m (.setseed a) := fun s _ key hm ha =>
  ⟨{ s with seed := a, seedValid := true }, rfl, hm,
    (List.append_nil key).symm ▸ ha.congr mh3Block rfl rfl rfl rfl⟩

theorem feeds_h3put16 (u : CodeUnit) : Feeds .h3s (.h3put16 u) := fun s _ _ hm ha =>
  ⟨_, exec_h3put16 u hm, (absorbAll_frame mh3Block (enc16 u) s).mode.trans hm, ha.absorbAll mh3Block (enc16 u)⟩

theorem feeds_h3put32 (v : Word) : Feeds .h3a (.h3put32 v) := fun s _ _ hm ha =>
  ⟨_, exec_h3put32 v hm, (absorbAll_frame mh3Block (enc32 v) s).mode.trans hm, ha.absorbAll mh3Block (enc32 v)⟩

/-- Commands that feed the message one by one feed it the concatenation. -/
theorem execAll_of_feeds {cmds : List Instr} (hfeeds : ∀ i ∈ cmds, Feeds m i) {s : State} {h0 : Word}
    {key : List Byte} (hm : s.mode = m) (ha : s.Absorbed mh3Block h0 key) :
    ∃ t, execAll cmds s = .next t ∧ t.mode = m ∧ t.Absorbed mh3Block h0 (key ++ cmds.flatMap keyBytes) := by
  induction cmds generalizing s key with
  | nil => exact ⟨s, rfl, hm, by simpa using ha⟩
  | cons i cmds ih =>
    rw [List.forall_mem_cons] at hfeeds
    obtain ⟨u, hu, hmu, hau⟩ := hfeeds.1 s h0 key hm ha
    obtain ⟨t, ht, hmt, hat⟩ := ih hfeeds.2 hmu hau
    exact ⟨t, (execAll_cons hu).trans ht, hmt, by simpa using hat⟩

end Streaming

/-- Settles O39: the init opens an empty message, each command feeds its key bytes, and H3FINAL gives the hash of the
absorbed key. -/
theorem streamingEqualsHash3 : Obligations.StreamingEqualsHash3 := by
  unfold Obligations.StreamingEqualsHash3
  intro s init m cmds hv hshape key
  obtain ⟨hinit, hm, hfeeds⟩ : exec init s = .next (s.openMessage m s.seed 0#32) ∧ (m = .h3s ∨ m = .h3a)
      ∧ ∀ i ∈ cmds, Feeds m i := by
    rcases hshape with ⟨rfl, rfl, hcmds⟩ | ⟨rfl, rfl, hcmds⟩
    · refine ⟨exec_h3initS hv, .inl rfl, fun i hi => ?_⟩
      obtain ⟨u, rfl⟩ | ⟨a, rfl⟩ := hcmds i hi
      · exact feeds_h3put16 u
      · exact feeds_setseed _ a
    · refine ⟨exec_h3initA hv, .inr rfl, fun i hi => ?_⟩
      obtain ⟨v, rfl⟩ | ⟨a, rfl⟩ := hcmds i hi
      · exact feeds_h3put32 v
      · exact feeds_setseed _ a
  obtain ⟨t, ht, hmt, hat⟩ := execAll_of_feeds hfeeds rfl (openMessage_absorbed mh3Block s m s.seed 0#32)
  refine ⟨t, (execAll_cons hinit).trans ht, hmt, hat, _, exec_h3final (hmt ▸ hm), ?_, rfl⟩
  exact hash3Value_of_absorbed hat

/-! ## The mixers' pure functions (R128, R131, R139, R155) -/

/-- MurmurHash3's tail handler on the little-endian word of the tail (R131). -/
theorem mh3Tail_eq_le32 (h : Word) {t : List Byte} (ht : t.length ≤ 3) :
    mh3Tail h t = h ^^^ mh3MixK (le32 (t.getD 0 0#8) (t.getD 1 0#8) (t.getD 2 0#8) 0#8) := by
  rw [mh3Tail_eq, mh3TailWord_eq_le32 t ht]

/-- MurmurHash2's tail handler on the little-endian word of a tail that is not empty (R155). -/
theorem mh2Tail_eq_le32 (h : Word) {t : List Byte} (ht : t.length ≤ 3) (hne : t.length ≠ 0) :
    mh2Tail h t = mul32 (h ^^^ le32 (t.getD 0 0#8) (t.getD 1 0#8) (t.getD 2 0#8) 0#8) mh2M := by
  rw [mh2Tail_eq h t ht, if_neg hne, mh3TailWord_eq_le32 t ht]

/-- Settles O52: both handlers mix the little-endian word of the tail's bytes, a missing byte read as 0. -/
theorem tailHandlersByResidue : Obligations.TailHandlersByResidue := by
  unfold Obligations.TailHandlersByResidue
  intro h a b c
  refine ⟨rfl, ?one, ?two, ?three, mh3Tail_eq h, rfl, mh2Tail_eq_le32 h (t := [a]) (by simp) (by simp),
    mh2Tail_eq_le32 h (t := [a, b]) (by simp) (by simp), mh2Tail_eq_le32 h (t := [a, b, c]) (by simp) (by simp)⟩
  case one => simpa [le32, zextByte, shl32] using mh3Tail_eq_le32 h (t := [a]) (by simp)
  case two => simpa [le32, zextByte, shl32] using mh3Tail_eq_le32 h (t := [a, b]) (by simp)
  case three => simpa [le32, zextByte, shl32] using mh3Tail_eq_le32 h (t := [a, b, c]) (by simp)

/-- The block word at index `i` of a key (R128, R157). -/
def keyWord (key : List Byte) (i : Nat) : Word :=
  le32 (key.getD (4 * i) 0#8) (key.getD (4 * i + 1) 0#8) (key.getD (4 * i + 2) 0#8) (key.getD (4 * i + 3) 0#8)

/-- The block fold is the loop over block indexes, and leaves what comes after the last full block. -/
theorem blockFold_eq_foldl_range (block : Word → Word → Word) (h : Word) (key : List Byte) :
    blockFold block h key =
      ((List.range (key.length / 4)).foldl (fun h i => block h (keyWord key i)) h,
        key.drop (4 * (key.length / 4))) := by
  induction h, key using blockFold.induct block with
  | case1 h b0 b1 b2 b3 rest ih =>
    have hlen : (b0 :: b1 :: b2 :: b3 :: rest).length / 4 = rest.length / 4 + 1 := by
      simp only [List.length_cons]; omega
    rw [blockFold, ih, hlen, List.range_succ_eq_map, List.foldl_cons, List.foldl_map]
    rfl
  | case2 => simp [blockFold]
  | case3 => simp [blockFold]
  | case4 => simp [blockFold]
  | case5 => simp [blockFold]

/-- Settles O53: the recursive block fold is the loop over block indexes. -/
theorem hash3ByBlockIndex : Obligations.Hash3ByBlockIndex := by
  unfold Obligations.Hash3ByBlockIndex
  intro key seed
  simp only [hash3, blockFold_eq_foldl_range]
  rfl

theorem encString_length (text : List CodeUnit) : (encString text).length = 2 * text.length := by
  simp [encString, enc16, Nat.mul_comm]

theorem encInt32s_length (values : List Word) : (encInt32s values).length = 4 * values.length := by
  simp [encInt32s, enc32, Nat.mul_comm]

/-- Settles O55: the lengths of the two encodings, and items 2 and 3 of R36, which every command keeps. -/
theorem reachableResidues : Obligations.ReachableResidues := by
  unfold Obligations.ReachableResidues
  refine ⟨fun text => ⟨encString_length text, ?_⟩, fun values => ⟨encInt32s_length values, ?_⟩,
    fun i s t hinv he hm => ?_⟩
  · rw [encString_length]; split <;> omega
  · rw [encInt32s_length]; omega
  · have ht : t.Inv := hinv.command he
    have htail : t.tailcnt = 0#2 ∨ t.tailcnt = 2#2 := by
      rcases hm with hs | ha
      · exact ht.h3sTail hs
      · exact .inl (ht.h3aNoTail ha)
    rcases htail with h | h <;> simp [h]

end Sys2Proof.Machine

namespace Sys2Proof.Machine

/-! ## The MurmurHash2 commands (spec/43_mh2.md section 3) -/

section Commands

variable {s : State} {i : Instr}

theorem exec_h2init (hv : s.seedValid = true) (n : Word) :
    exec (.h2init n) s = .next (s.openMessage .h2 (s.seed ^^^ n) n) :=
  congrArg Host.Outcome.next (State.openSeeded_of_valid hv _ _ _)

theorem exec_h2put_of_room (hm : s.mode = .h2) (hc : s.count ≠ s.declen) (c : CodeUnit) :
    exec (.h2put c) s = .next (s.absorb2 (charByte c)) := by rw [exec_h2put c hm, if_neg hc]

theorem exec_h2put_of_full (hm : s.mode = .h2) (hc : s.count = s.declen) (c : CodeUnit) :
    exec (.h2put c) s = .next (s.fail .lengthOverrun) := by rw [exec_h2put c hm, if_pos hc]

theorem exec_h2final_of_full (hm : s.mode = .h2) (hc : s.count = s.declen) :
    exec .h2final s = .next (s.closeWith s.hash2Value) := by rw [exec_h2final hm, if_neg (not_not.mpr hc)]

/-- A command with a cause to fail answers the error action with that cause. -/
theorem exec_of_failCause {c : Cause} (h : s.failCause? i.opcode = some c) : exec i s = .next (s.fail c) := by
  obtain ⟨t, ht⟩ := exec_next i s
  have hout := exec_outcome ht
  rw [h] at hout
  rw [ht, hout]

/-- The MurmurHash2 commands find the wrong family in a MurmurHash3 message (R161, R162). -/
theorem State.messageCause?_h2_of_h3 (hm : s.mode = .h3s ∨ s.mode = .h3a) (own : Option Cause) :
    s.messageCause? (· == .h2) own = some .shapeMismatch := by
  rcases hm with hm | hm <;> simp [messageCause?, hm]

end Commands

/-- Settles O14: the message opens with a seed only, and H2INIT is a class W command. -/
theorem h2InitOpensMessageWithLength : Obligations.H2InitOpensMessageWithLength := by
  unfold Obligations.H2InitOpensMessageWithLength
  exact ⟨fun n s hv => exec_h2init hv n, fun n s hv => exec_init_without_seed rfl hv,
    fun w s hop => takeCommand_of_classW (k := .h2init) rfl hop s⟩

/-- Settles O18: one absorbed byte while COUNT differs from DECLEN; under R36 a declared length of 0 is reached at
once. -/
theorem h2PutAbsorbsTheLowByte : Obligations.H2PutAbsorbsTheLowByte := by
  unfold Obligations.H2PutAbsorbsTheLowByte
  refine ⟨fun c s hm hc => exec_h2put_of_room hm hc c, fun c s hm hc => exec_h2put_of_full hm hc c,
    fun c s hinv hm hn => ?empty, fun c s hm => exec_of_idle (.inl rfl) hm,
    fun c s hm => exec_of_failCause (State.messageCause?_h2_of_h3 hm _), fun w s hop => ?word⟩
  case empty =>
    obtain ⟨hle, -⟩ := hinv.h2Count hm
    refine exec_h2put_of_full hm (BitVec.eq_of_toNat_eq ?_) c
    rw [hn] at hle ⊢
    exact Nat.le_zero.mp hle
  case word => rw [takeCommand_of_classU (k := .h2put) rfl hop, Opcode.withOperand, unitOperand_aField]

/-- Settles O19: the command closes the message with `hash2Value` when COUNT is DECLEN; item 5 of R36 bounds COUNT and
ties TAILCNT to it. -/
theorem h2FinalGivesTheResult : Obligations.H2FinalGivesTheResult := by
  unfold Obligations.H2FinalGivesTheResult
  refine ⟨fun s hm hc => exec_h2final_of_full hm hc, fun s hm hc => ?underrun, fun s hinv hm hc => ?fewer,
    fun s hinv hm => ?residue, fun s => setWidth_tail_eq_le32 s.tail, fun s hm => exec_of_idle (.inr rfl) hm,
    fun s hm => exec_of_failCause (State.messageCause?_h2_of_h3 hm _),
    fun w s hop => takeCommand_of_classZ (i := .h2final) rfl hop s⟩
  case underrun => rw [exec_h2final hm, if_pos hc]
  case fewer => exact (hinv.h2Count hm).1.lt_of_ne (mt BitVec.eq_of_toNat_eq hc)
  case residue => rw [(hinv.h2Count hm).2, ← BitVec.toNat_inj]; rfl

/-! ## Streaming a MurmurHash2 message (R163) -/

section Streaming

variable {s : State}

/-- While the declared length has room, H2PUT of each character absorbs the characters' low bytes. -/
theorem execAll_h2puts {text : List CodeUnit} (hm : s.mode = .h2)
    (hroom : s.count.toNat + text.length ≤ s.declen.toNat) :
    execAll (text.map Instr.h2put) s
      = .next ((text.map charByte).foldl (fun s b => s.absorb mh2Block b) s) := by
  induction text generalizing s with
  | nil => rfl
  | cons c text ih =>
    rw [List.length_cons] at hroom
    have hc : s.count ≠ s.declen := fun h => by rw [h] at hroom; omega
    have hcount : (s.count + 1#32).toNat = s.count.toNat + 1 := by
      have := s.declen.isLt
      simp only [BitVec.toNat_add, BitVec.toNat_ofNat]; omega
    rw [List.map_cons, execAll_cons (exec_h2put_of_room hm hc c), List.map_cons, List.foldl_cons]
    refine ih ((s.absorb_mode ..).trans hm) ?_
    rw [State.absorb2, State.absorb_count, State.absorb_declen, hcount]
    omega

/-- H2INIT and puts within the declared length: the engine holds the characters, and the rest is as H2INIT left it. -/
theorem execAll_h2init_h2puts (hv : s.seedValid = true) {n : Word} {text : List CodeUnit}
    (hlen : text.length ≤ n.toNat) :
    ∃ t, execAll (.h2init n :: text.map Instr.h2put) s = .next t ∧ t.Holds (.chars s.seed n text)
      ∧ SameButStream (s.openMessage .h2 (s.seed ^^^ n) n) t := by
  have hputs := execAll_h2puts (s := s.openMessage .h2 (s.seed ^^^ n) n) (text := text) rfl (by simpa using hlen)
  have hframe := absorbAll_frame mh2Block (text.map charByte) (s.openMessage .h2 (s.seed ^^^ n) n)
  have habsorbed := (openMessage_absorbed mh2Block s .h2 (s.seed ^^^ n) n).absorbAll mh2Block (text.map charByte)
  exact ⟨_, (execAll_cons (exec_h2init hv n)).trans hputs, ⟨hframe.mode, hframe.declen, hlen, habsorbed⟩, hframe⟩

/-- Nothing a put or final command does shows after an error: no message is open, and the first cause is kept (R202). -/
theorem execAll_of_failed {cmds : List Instr} (hcmds : ∀ i ∈ cmds, isPut i = true ∨ isFinal i = true) (c : Cause) :
    execAll cmds (s.fail c) = .next (s.fail c) := by
  induction cmds with
  | nil => rfl
  | cons i cmds ih =>
    rw [List.forall_mem_cons] at hcmds
    have hstay : exec i (s.fail c) = .next (s.fail c) := by
      rw [exec_of_idle hcmds.1 (s.fail_mode c)]; rfl
    rw [execAll_cons hstay, ih hcmds.2]

end Streaming

/-- Settles O40: the puts fill the declared length exactly, and H2FINAL gives the hash of the characters held. -/
theorem streamingEqualsHash2 : Obligations.StreamingEqualsHash2 := by
  unfold Obligations.StreamingEqualsHash2
  intro s text hv hlen
  have hn : text.length = (lengthOperand text.length).toNat := (Nat.mod_eq_of_lt hlen).symm
  obtain ⟨t, ht, hold, -⟩ := execAll_h2init_h2puts hv hn.le
  have hfinal := exec_h2final_of_full hold.mode_eq (hold.count_eq_declen_iff.mpr hn)
  exact ⟨t.closeWith t.hash2Value, (execAll_append ht).trans (execAll_cons hfinal),
    hash2Value_of_holds_chars hold hn, rfl, rfl⟩

/-- Settles O44: the declared length is the text's modulo 2^32, so the puts reach it with a character left; that put
overruns, and every later command finds no message. -/
theorem longMurmurHash2TextOverruns : Obligations.LongMurmurHash2TextOverruns := by
  unfold Obligations.LongMurmurHash2TextOverruns
  intro text s hv hlen
  generalize hn : lengthOperand text.length = n
  have hlt : n.toNat < text.length := n.isLt.trans_le hlen
  obtain ⟨before, c, after, rfl, hbefore⟩ :
      ∃ before c after, text = before ++ c :: after ∧ before.length = n.toNat :=
    ⟨text.take n.toNat, text[n.toNat], text.drop (n.toNat + 1), by simp, List.length_take_of_le hlt.le⟩
  obtain ⟨t, ht, hold, hframe⟩ := execAll_h2init_h2puts hv hbefore.le
  have hput := exec_h2put_of_full hold.mode_eq (hold.count_eq_declen_iff.mpr hbefore) c
  have hrest : ∀ i ∈ after.map Instr.h2put ++ [.h2final], isPut i = true ∨ isFinal i = true :=
    List.forall_mem_append.mpr ⟨List.forall_mem_map.mpr fun _ _ => .inl rfl, List.forall_mem_singleton.mpr (.inr rfl)⟩
  refine ⟨t.fail .lengthOverrun, ?_, rfl, ?_, rfl, hframe.result⟩
  · rw [List.map_append, List.append_assoc, ← List.cons_append, execAll_append ht, List.map_cons, List.cons_append,
      execAll_cons hput, execAll_of_failed hrest]
  · simp [hframe.err]

/-! ## hash2 (R157, R158) -/

/-- Settles O54: the recursive block fold is the loop over block indexes, and the byte at an index is that of the
character there. -/
theorem hash2ByBlockIndex : Obligations.Hash2ByBlockIndex := by
  unfold Obligations.Hash2ByBlockIndex
  intro text seed
  have hbyte (i : Nat) : (text.map charByte).getD i 0#8 = charByte (text.getD i 0#16) :=
    List.getD_map text 0#16 charByte
  simp only [hash2, blockFold_eq_foldl_range, keyWord, hbyte, List.length_map, ← List.map_drop]
  rfl

/-- Settles O56: the pure function and the command read the characters through `charByte`, and texts of the same bytes
have one length. -/
theorem murmurHash2SeesLowBytesOnly : Obligations.MurmurHash2SeesLowBytesOnly := by
  unfold Obligations.MurmurHash2SeesLowBytesOnly
  refine ⟨fun text text' seed hbytes => ?_, fun c c' s hbyte => ?_⟩
  · have hlen : text.length = text'.length := by simpa using congrArg List.length hbytes
    have hmap : text.map charByte = text'.map charByte := hbytes
    rw [hash2, hash2, hlen, hmap]
  · have hchar : charByte c = charByte c' := hbyte
    show execH2put c s = execH2put c' s
    rw [execH2put, execH2put, hchar]

end Sys2Proof.Machine

namespace Sys2Proof.Machine

/-! ## SETSEED and the read port (spec/44_control.md R180, R182, R183) -/

/-- Settles O11: SETSEED is one record update, and it is a class W command. -/
theorem setseedLoadsTheSeed : Obligations.SetseedLoadsTheSeed := by
  unfold Obligations.SetseedLoadsTheSeed
  exact ⟨fun a s => rfl, fun w s hop => takeCommand_of_classW (k := .setseed) rfl hop s⟩

/-- Settles O29, address by address; TAIL alone is narrower than the port's word, which the port fills with zeros. -/
theorem readPortShowsTheRegisters : Obligations.ReadPortShowsTheRegisters := by
  unfold Obligations.ReadPortShowsTheRegisters
  intro s
  have htail : s.readPort 6#3 = s.tail.setWidth 32 := rfl
  refine ⟨rfl, rfl, rfl, rfl, rfl, rfl, ?register, ?zeros, rfl⟩ <;> rw [htail]
  case register =>
    refine extractLsb'_eq_of_getLsbD fun i hi => ?_
    simp [show i < 32 by omega]
  case zeros =>
    refine extractLsb'_eq_of_getLsbD fun i hi => ?_
    simp

/-- With a read waiting, a step answers it, under reset too. -/
theorem step_of_read {s : State} {ra : ReadAddr} {rest : List HostAction} (hin : s.inputs = .read ra :: rest) :
    step s = .next (({ s with inputs := rest } : State).answerRead ra) :=
  step_of_cons hin

/-- Settles O30: the port shows the same word once the read is taken off the list. -/
theorem readsChangeNoRegister : Obligations.ReadsChangeNoRegister := by
  unfold Obligations.ReadsChangeNoRegister
  exact fun s ra rest hin => step_of_read hin

/-! ## Command programs (spec/44_control.md R184 to R187)

A program is commands issued one after another and then the two closing reads, so what it gives the host is read off
the state in which the commands leave the engine. -/

section Programs

variable {s t : State} {i : Instr} {cmds : List Instr} {hash : Word}

/-- With a command issued and the reset input released, a step executes the command. -/
theorem step_of_issued (rest : List HostAction) (hr : s.resetLine = false) (he : exec i s = .next t) :
    step { s with inputs := issue i :: rest } = .next { t with inputs := rest } :=
  calc step { s with inputs := issue i :: rest }
      = takeCommand (encode i) { s with inputs := rest } := step_of_command rfl hr
    _ = exec i { s with inputs := rest } := takeCommand_of_ok (decode_encode i)
    _ = .next { t with inputs := rest } := exec_withInputs rest he

/-- Steps over issued commands execute them one after another. -/
theorem runSteps_of_issued (rest : List HostAction) (hr : s.resetLine = false) (he : execAll cmds s = .next t) :
    runSteps cmds.length { s with inputs := cmds.map issue ++ rest } = .next { t with inputs := rest } := by
  induction cmds generalizing s with
  | nil => cases he; rfl
  | cons i cmds ih =>
    obtain ⟨u, hu⟩ := exec_next i s
    obtain ⟨-, -, hreset⟩ := exec_keeps_boundary hu
    rw [execAll_cons hu] at he
    exact (runSteps_succ _ (step_of_issued _ hr hu)).trans (ih (hreset.trans hr) he)

/-- What every command keeps, commands one after another keep. -/
theorem execAll_preserves {P : State → Prop} (hstep : ∀ {i s t}, P s → exec i s = .next t → P t) (h : P s)
    (he : execAll cmds s = .next t) : P t := by
  induction cmds generalizing s with
  | nil => cases he; exact h
  | cons i cmds ih =>
    obtain ⟨u, hu⟩ := exec_next i s
    rw [execAll_cons hu] at he
    exact ih (hstep h hu) he

theorem execAll_keeps_reads (he : execAll cmds s = .next t) : t.reads = s.reads :=
  execAll_preserves (P := (·.reads = s.reads))
    (fun h hu => let ⟨_, hreads, _⟩ := exec_keeps_boundary hu; hreads.trans h) rfl he

/-- The two closing reads answer STATUS and RESULT. -/
theorem runSteps_closingReads (s : State) (rest : List HostAction) :
    runSteps closingReads.length { s with inputs := closingReads ++ rest }
      = .next { s with inputs := rest, reads := (1#3, s.result) :: (0#3, s.status) :: s.reads } := rfl

/-- RESULT is taken when STATUS shows DONE = 1 and ERR = 0 (R187). -/
theorem takeResult_status (hdone : s.done = true) (herr : s.err = false) (result : Word) :
    takeResult s.status result = some result := by
  have hdoneBit : s.status.getLsbD 2 = true := (s.getLsbD_status 2).trans hdone
  have herrBit : s.status.getLsbD 3 = false := (s.getLsbD_status 3).trans herr
  rw [takeResult, hdoneBit, herrBit]
  rfl

/-- From `s`, the commands complete without an error and leave the hash at RESULT. -/
def CommandsGive (cmds : List Instr) (hash : Word) (s : State) : Prop :=
  ∃ t, execAll cmds s = .next t ∧ t.result = hash ∧ t.done = true ∧ t.err = false

/-- The program of commands that give a hash gives it to the host. -/
theorem CommandsGive.programGives (h : CommandsGive cmds hash s) (hr : s.resetLine = false) :
    ProgramGives (cmds.map issue ++ closingReads) hash s := by
  obtain ⟨t, he, rfl, hdone, herr⟩ := h
  intro rest hin
  have hcmds := runSteps_of_issued (closingReads ++ rest) hr he
  rw [← List.append_assoc, ← hin] at hcmds
  refine ⟨{ t with inputs := rest, reads := (1#3, t.result) :: (0#3, t.status) :: t.reads }, t.status,
    ?run, rfl, ?reads, (t.getLsbD_status 2).trans hdone, (t.getLsbD_status 3).trans herr,
    takeResult_status hdone herr t.result⟩
  case run =>
    rw [List.length_append, List.length_map]
    exact (runSteps_add _ _ hcmds).trans (runSteps_closingReads t rest)
  case reads => rw [execAll_keeps_reads he]

/-- Commands that give a hash wherever SEED holds the seed give it to the host with a SETSEED before them, and without
it where SEED holds the seed already. -/
theorem programGives_of_seeded {seed : Word}
    (h : ∀ s : State, s.seedValid = true → s.seed = seed → CommandsGive cmds hash s) (hr : s.resetLine = false) :
    ProgramGives ((.setseed seed :: cmds).map issue ++ closingReads) hash s
      ∧ (s.seedValid = true → s.seed = seed → ProgramGives (cmds.map issue ++ closingReads) hash s) := by
  have hset : exec (.setseed seed) s = .next { s with seed := seed, seedValid := true } := rfl
  obtain ⟨t, he, hgives⟩ := h { s with seed := seed, seedValid := true } rfl rfl
  exact ⟨CommandsGive.programGives ⟨t, (execAll_cons hset).trans he, hgives⟩ hr,
    fun hv hs => (h s hv hs).programGives hr⟩

/-- After an init command that opened a message, DONE = 1 says that there was no error since. -/
theorem err_eq_false_of_opened {m : Mode} {h0 n : Word} (hopen : exec i s = .next (s.openMessage m h0 n))
    (he : execAll (i :: cmds) s = .next t) (hdone : t.done = true) : t.err = false := by
  rw [execAll_cons hopen] at he
  have hinv : t.Inv := execAll_preserves (P := State.Inv) (fun h hu => h.command hu) (s.openMessage_inv m h0 n) he
  exact (hinv.doneClean hdone).1

/-- A MurmurHash3 message of commands that feed it gives HASH3 of their key bytes (R138). -/
theorem commandsGive_hash3 {m : Mode} (hopen : exec i s = .next (s.openMessage m s.seed 0#32))
    (hm : m = .h3s ∨ m = .h3a) (hfeeds : ∀ i ∈ cmds, Feeds m i) :
    CommandsGive (i :: (cmds ++ [.h3final])) (hash3 (cmds.flatMap keyBytes) s.seed) s := by
  obtain ⟨t, ht, hmt, hat⟩ := execAll_of_feeds hfeeds rfl (openMessage_absorbed mh3Block s m s.seed 0#32)
  have hfinal := exec_h3final (hmt.symm ▸ hm)
  have he : execAll (i :: (cmds ++ [.h3final])) s = .next (t.closeWith t.hash3Value) :=
    (execAll_cons hopen).trans ((execAll_append ht).trans (execAll_cons hfinal))
  exact ⟨_, he, hash3Value_of_absorbed hat, rfl, err_eq_false_of_opened hopen he rfl⟩

/-- The commands of a string message (R129). -/
theorem commandsGive_hash3ForString (text : List CodeUnit) {seed : Nat} (hv : s.seedValid = true)
    (hs : s.seed = seedOperand seed) :
    CommandsGive (.h3initS :: (text.map .h3put16 ++ [.h3final])) (hash3ForString text seed) s := by
  have h := commandsGive_hash3 (exec_h3initS hv) (.inl rfl)
    (List.forall_mem_map.mpr fun u (_ : u ∈ text) => feeds_h3put16 u)
  rwa [List.flatMap_map, hs] at h

/-- The commands of an array message (R130). -/
theorem commandsGive_hash3ForInt32Array (values : List Word) {seed : Nat} (hv : s.seedValid = true)
    (hs : s.seed = seedOperand seed) :
    CommandsGive (.h3initA :: (values.map .h3put32 ++ [.h3final])) (hash3ForInt32Array values seed) s := by
  have h := commandsGive_hash3 (exec_h3initA hv) (.inr rfl)
    (List.forall_mem_map.mpr fun v (_ : v ∈ values) => feeds_h3put32 v)
  rwa [List.flatMap_map, hs] at h

/-- The commands of a MurmurHash2 message whose length H2INIT can carry (R163). -/
theorem commandsGive_hash2 {text : List CodeUnit} (hlen : text.length < 2 ^ 32) (hv : s.seedValid = true) :
    CommandsGive (.h2init (lengthOperand text.length) :: (text.map .h2put ++ [.h2final])) (hash2 text s.seed) s := by
  obtain ⟨t, he, hresult, hdone, -⟩ := streamingEqualsHash2 s text hv hlen
  exact ⟨t, he, hresult, hdone, err_eq_false_of_opened (exec_h2init hv _) he hdone⟩

theorem hash3ForStringProgram_eq (text : List CodeUnit) (seed : Nat) :
    hash3ForStringProgram text seed
      = (.setseed (seedOperand seed) :: .h3initS :: (text.map .h3put16 ++ [.h3final])).map issue ++ closingReads := by
  simp [hash3ForStringProgram, Function.comp_def]

theorem hash3ForInt32ArrayProgram_eq (values : List Word) (seed : Nat) :
    hash3ForInt32ArrayProgram values seed
      = (.setseed (seedOperand seed) :: .h3initA :: (values.map .h3put32 ++ [.h3final])).map issue
        ++ closingReads := by
  simp [hash3ForInt32ArrayProgram, Function.comp_def]

theorem hash2Program_eq (text : List CodeUnit) (seed : Nat) :
    hash2Program text seed
      = (.setseed (seedOperand seed) :: .h2init (lengthOperand text.length)
          :: (text.map .h2put ++ [.h2final])).map issue ++ closingReads := by
  simp [hash2Program, Function.comp_def]

end Programs

/-- Settles O41: the program issues the commands of a string message, which give the hash. -/
theorem hash3ForStringProgramGivesTheHash : Obligations.Hash3ForStringProgramGivesTheHash := by
  unfold Obligations.Hash3ForStringProgramGivesTheHash
  intro text seed s hr
  rw [hash3ForStringProgram_eq]
  exact programGives_of_seeded (fun s => commandsGive_hash3ForString text) hr

/-- Settles O42: the program issues the commands of an array message, which give the hash. -/
theorem hash3ForInt32ArrayProgramGivesTheHash : Obligations.Hash3ForInt32ArrayProgramGivesTheHash := by
  unfold Obligations.Hash3ForInt32ArrayProgramGivesTheHash
  intro values seed s hr
  rw [hash3ForInt32ArrayProgram_eq]
  exact programGives_of_seeded (fun s => commandsGive_hash3ForInt32Array values) hr

/-- Settles O43: the program issues the commands of a MurmurHash2 message, which give the hash. -/
theorem hash2ProgramGivesTheHash : Obligations.Hash2ProgramGivesTheHash := by
  unfold Obligations.Hash2ProgramGivesTheHash
  intro text seed s hr hlen
  rw [hash2Program_eq]
  exact programGives_of_seeded (fun s hv hs => hs ▸ commandsGive_hash2 hlen hv) hr

end Sys2Proof.Machine

namespace Sys2Proof.Machine

/-! ## The error action and its clearing (spec/60_exceptions.md R202, R207, R208) -/

section Errors

variable {s t : State} {i : Instr} {w : CommandWord} {k : Opcode}

/-- After an error the error action finds nothing left to change (R207). -/
theorem State.fail_fail (s : State) (c d : Cause) : (s.fail c).fail d = s.fail c := rfl

/-- With a seed an init command opens a message, the same one whatever ERR and CAUSE are (R207). -/
theorem exec_init_with_seed (hi : isInit i = true) (hv : s.seedValid = true) :
    ∃ m h0 n, m ≠ .idle ∧ ∀ e c, exec i { s with err := e, cause := c } = .next (s.openMessage m h0 n) := by
  cases i with
  | h3initS => exact ⟨.h3s, s.seed, 0#32, nofun, fun e c => exec_h3initS (s := { s with err := e, cause := c }) hv⟩
  | h3initA => exact ⟨.h3a, s.seed, 0#32, nofun, fun e c => exec_h3initA (s := { s with err := e, cause := c }) hv⟩
  | h2init n =>
    exact ⟨.h2, s.seed ^^^ n, n, nofun, fun e c => exec_h2init (s := { s with err := e, cause := c }) hv n⟩
  | _ => cases hi

/-- A command that takes ERR from 1 to 0 is an init command with a seed (R208). -/
theorem isInit_of_clears_err (h : exec i s = .next t) (herr : s.err = true) (hclear : t.err = false) :
    isInit i = true ∧ s.seedValid = true := by
  have hne : t.err ≠ s.err := by rw [hclear, herr]; decide
  rcases exec_kinds h with ⟨c, -, rfl⟩ | ⟨a, -, rfl⟩ | ⟨hi, hv, -⟩ | ⟨-, -, block, rfl⟩ | ⟨-, -, x, rfl⟩
  · cases hclear
  · exact absurd rfl hne
  · exact ⟨hi, hv⟩
  · exact absurd (absorbAll_frame block (fedBytes i) s).err hne
  · exact absurd rfl hne

/-- A word of an assigned opcode that is no command fails with RESERVED_BITS (R64 steps 2 and 3). -/
theorem takeCommand_of_illFormed (hop : opField w = k.code) (hd : ∀ i, decode w ≠ .ok i) (s : State) :
    takeCommand w s = .next (s.fail .reservedBits) := by
  rw [takeCommand_of_opcode hop, if_neg]
  rintro ⟨hr, ha⟩
  exact hd _ (decode_ok_iff.mpr ⟨k, hop ▸ opcodeOf?_code k, hr, ha, rfl⟩)

end Errors

/-- Settles O22: the two cases of ERR, and then no message is open for a put or final command. -/
theorem failKeepsFirstCauseAndCloses : Obligations.FailKeepsFirstCauseAndCloses := by
  unfold Obligations.FailKeepsFirstCauseAndCloses
  intro s c _
  refine ⟨?_, fun i hi => exec_of_idle hi rfl⟩
  cases he : s.err with
  | false => simp [State.fail, he]
  | true => simp [State.fail, he]

/-- Settles O24, code by code. -/
theorem causeAndModeCodes : Obligations.CauseAndModeCodes := by
  unfold Obligations.CauseAndModeCodes
  exact ⟨rfl, rfl⟩

/-- Settles O25: of all steps only an opened message and the assertion of reset take ERR to 0. -/
theorem onlyInitOrResetClearsError : Obligations.OnlyInitOrResetClearsError := by
  unfold Obligations.OnlyInitOrResetClearsError
  refine ⟨fun s t herr hs hclear => ?onlyThese, fun i s hi hv => ?opened, fun i s => exec_init_without_seed,
    fun w s hop hd => ?illFormed, fun s rest hin => ⟨_, step_of_cons hin, rfl, rfl⟩⟩
  case onlyThese =>
    rcases step_kinds hs with ⟨reset, inputs, reads, rfl⟩ | ⟨rest, c, -, rfl⟩ | ⟨w, i, rest, hin, hr, hd, he⟩
      | ⟨rest, hin, -⟩
    · cases herr.symm.trans hclear
    · cases hclear
    · obtain ⟨hi, hv⟩ := isInit_of_clears_err he herr hclear
      exact .inr ⟨w, i, rest, hin, hr, hd, hi, hv⟩
    · exact .inl ⟨rest, hin⟩
  case opened =>
    obtain ⟨m, h0, n, -, hopen⟩ := exec_init_with_seed hi hv
    exact ⟨_, hopen s.err s.cause, rfl, rfl⟩
  case illFormed =>
    have hcode : ∀ op ∈ [0x10#8, 0x11#8, 0x20#8], ∃ k ∈ [Opcode.h3initS, .h3initA, .h2init], op = k.code := by decide
    obtain ⟨k, -, hk⟩ := hcode _ hop
    exact takeCommand_of_illFormed hk hd s

/-- Settles O26: the error action is idempotent, an init command opens the same message with and without an error, and
the table of conditions reads SEED_VALID, MODE, COUNT and DECLEN only. -/
theorem errorsDoNotBlockTheEngine : Obligations.ErrorsDoNotBlockTheEngine := by
  unfold Obligations.ErrorsDoNotBlockTheEngine
  refine ⟨fun s c d _ _ => s.fail_fail c d, fun s d herr => ?keepsCause, fun s a _ => rfl,
    fun i s hi _ hv => ?init, fun w s e c => rfl⟩
  case keepsCause => rw [State.fail_cause, if_pos herr]
  case init =>
    obtain ⟨m, h0, n, hm, hopen⟩ := exec_init_with_seed hi hv
    have hs : exec i s = .next (s.openMessage m h0 n) := hopen s.err s.cause
    exact ⟨hs.trans (hopen false .none).symm, _, hs, hm, rfl, rfl⟩

end Sys2Proof.Machine

namespace Sys2Proof.Machine

/-! ## The reset input, and that no step stops the machine (spec/70_reset_and_hazards.md R230, R237) -/

section Reset

variable {s t : State} {w : CommandWord} {rest : List HostAction}

/-- With an assertion of the reset input waiting, a step clears the registers. -/
theorem step_of_assertReset (hin : s.inputs = .assertReset :: rest) :
    step s = .next ({ s with inputs := rest } : State).assertReset :=
  step_of_cons hin

@[simp] theorem State.assertReset_status (s : State) : s.assertReset.status = 0#32 :=
  calc s.assertReset.status
      = State.reset.status := rfl
    _ = 0#32 := by decide

theorem takeAction_command_of_reset (w : CommandWord) (hr : s.resetLine = true) :
    takeAction (.command w) s = .next s :=
  if_pos hr

/-- A command word leaves the reset input as it is, whether it executes or fails to decode. -/
theorem takeCommand_keeps_resetLine (h : takeCommand w s = .next t) : t.resetLine = s.resetLine := by
  rcases takeCommand_cases h with ⟨i, -, he⟩ | ⟨-, c, -, rfl⟩
  · obtain ⟨-, -, hreset⟩ := exec_keeps_boundary he
    exact hreset
  · exact s.fail_resetLine c

/-- The host's own fields are no registers, so they do not count for the values held in reset. -/
theorem State.HeldInReset.withInputsAndReads (h : s.HeldInReset) (inputs : List HostAction)
    (reads : List (ReadAddr × Word)) : ({ s with inputs := inputs, reads := reads } : State).HeldInReset :=
  fun hr => congrArg (fun u : State => { u with inputs := inputs, reads := reads }) (h hr)

/-- With the reset input released there is nothing to hold. -/
theorem State.heldInReset_of_released (hr : s.resetLine = false) : s.HeldInReset :=
  fun hheld => absurd hheld (by simp [hr])

theorem State.assertReset_heldInReset (s : State) : s.assertReset.HeldInReset := fun _ => rfl

/-- Every command word answers a next state (R67): it executes, or fails with its decode cause. -/
theorem takeCommand_next (w : CommandWord) (s : State) : ∃ t, takeCommand w s = .next t := by
  cases hd : decode w with
  | ok i => rw [takeCommand_of_ok hd]; exact exec_next i s
  | illegalOpcode => exact ⟨_, takeCommand_of_illegalOpcode hd⟩
  | reservedBits => exact ⟨_, takeCommand_of_reservedBits hd⟩

/-- Every action of the host answers a next state. -/
theorem takeAction_next (a : HostAction) (s : State) : ∃ t, takeAction a s = .next t := by
  cases a with
  | command w =>
    cases hr : s.resetLine with
    | true => exact ⟨s, takeAction_command_of_reset w hr⟩
    | false => rw [takeAction_command w hr]; exact takeCommand_next w s
  | read ra => exact ⟨s.answerRead ra, rfl⟩
  | assertReset => exact ⟨s.assertReset, rfl⟩
  | releaseReset => exact ⟨s.releaseReset, rfl⟩

end Reset

/-- Settles O3: with reset held a step touches the host's own fields only, a command executes only with reset released
and leaves it so, and asserting reset sets the values that are held. -/
theorem stepsKeepRegistersResetWhileHeld : Obligations.StepsKeepRegistersResetWhileHeld := by
  unfold Obligations.StepsKeepRegistersResetWhileHeld
  intro s t h hs
  rcases step_cases hs with ⟨-, rfl⟩ | ⟨w, rest, -, -, rfl⟩ | ⟨w, rest, -, hr, hw⟩ | ⟨ra, rest, -, rfl⟩
    | ⟨rest, -, rfl⟩ | ⟨rest, -, rfl⟩
  · exact h
  · exact h.withInputsAndReads rest s.reads
  · exact State.heldInReset_of_released ((takeCommand_keeps_resetLine hw).trans hr)
  · exact h.withInputsAndReads rest ((ra, s.readPort ra) :: s.reads)
  · exact State.assertReset_heldInReset _
  · exact State.heldInReset_of_released rfl

/-- Settles O2: the step that takes the assertion is `assertReset`, and a command under reset is taken off the list and
dropped. -/
theorem assertedResetClearsAndHolds : Obligations.AssertedResetClearsAndHolds := by
  unfold Obligations.AssertedResetClearsAndHolds
  refine ⟨fun s rest hin => step_of_assertReset hin, fun s t rest hin hs => ?status, fun s w rest hr hin => ?held⟩
  case status =>
    cases (step_of_assertReset hin).symm.trans hs
    exact State.assertReset_status _
  case held => exact (step_of_cons hin).trans (takeAction_command_of_reset w hr)

/-- Settles O28: the engine waits, or takes an action, and every action is answered. -/
theorem everyStepGoesOn : Obligations.EveryStepGoesOn := by
  unfold Obligations.EveryStepGoesOn
  intro s
  cases hin : s.inputs with
  | nil => exact ⟨s, step_of_nil hin⟩
  | cons a rest => rw [step_of_cons hin]; exact takeAction_next a { s with inputs := rest }

end Sys2Proof.Machine

namespace Sys2Proof.Machine

/-- A word written out decodes to the command whose encoding it is. -/
theorem decode_of_encode_eq {w : CommandWord} {i : Instr} (h : encode i = w) : decode w = .ok i :=
  h ▸ decode_encode i

/-- Settles O4: each word is the encoding of the command it stands for, and the decoder gives back what is encoded. -/
theorem specExampleWordsDecode : Obligations.SpecExampleWordsDecode := by
  unfold Obligations.SpecExampleWordsDecode
  exact ⟨decode_of_encode_eq rfl, decode_of_encode_eq rfl, decode_of_encode_eq rfl, decode_of_encode_eq rfl,
    decode_of_encode_eq rfl, decode_of_encode_eq rfl, decode_of_encode_eq rfl, decode_of_encode_eq rfl⟩

end Sys2Proof.Machine
